-- ==== Sys2Proof/Word.lean ====
section
/-! DEFINITION. The machine's data words (spec/00_scope.md R8 to R12): every register, immediate and memory byte is an
unsigned bit string; only the stack pointer is read as a signed value. -/
namespace Sys2Proof

/-- A memory cell, a V register, a timer or an immediate KK: 8 bits (R8 REG_WIDTH, TIMER_WIDTH). -/
abbrev Byte := BitVec 8

/-- An instruction word, I, pc or a stack entry: 16 bits (R8 INSN_WIDTH, I_WIDTH, PC_WIDTH). -/
abbrev Word := BitVec 16

/-- A 4-bit field of an instruction word (R16): a register index X or Y, a row count N, a key or a digit. -/
abbrev Nibble := BitVec 4

/-- The 12-bit field NNN (R10). -/
abbrev Addr := BitVec 12

end Sys2Proof
end

