-- ==== Sys2Proof/Syntax.lean ====
section
/-! DEFINITION. The 34 instructions of spec/30_encoding.md R75 and spec/opcode_table.json, one constructor per row. An
operand's type is its field's width (R71 to R73), so every term is an instruction the encoding admits. The Y field of 8XY6
and 8XYE is no operand (R76). -/
namespace Sys2Proof

inductive Instr where
  /-- 00E0 CLS -/
  | cls
  /-- 00EE RET -/
  | ret
  /-- 1NNN JP addr -/
  | jp (nnn : Addr)
  /-- 2NNN CALL addr -/
  | call (nnn : Addr)
  /-- 3XKK SE Vx, byte -/
  | seByte (x : Nibble) (kk : Byte)
  /-- 4XKK SNE Vx, byte -/
  | sneByte (x : Nibble) (kk : Byte)
  /-- 5XY0 SE Vx, Vy -/
  | seReg (x y : Nibble)
  /-- 6XKK LD Vx, byte -/
  | ldByte (x : Nibble) (kk : Byte)
  /-- 7XKK ADD Vx, byte -/
  | addByte (x : Nibble) (kk : Byte)
  /-- 8XY0 LD Vx, Vy -/
  | ldReg (x y : Nibble)
  /-- 8XY1 OR Vx, Vy -/
  | orReg (x y : Nibble)
  /-- 8XY2 AND Vx, Vy -/
  | andReg (x y : Nibble)
  /-- 8XY3 XOR Vx, Vy -/
  | xorReg (x y : Nibble)
  /-- 8XY4 ADD Vx, Vy -/
  | addReg (x y : Nibble)
  /-- 8XY5 SUB Vx, Vy -/
  | subReg (x y : Nibble)
  /-- 8XY6 SHR Vx -/
  | shr (x : Nibble)
  /-- 8XY7 SUBN Vx, Vy -/
  | subnReg (x y : Nibble)
  /-- 8XYE SHL Vx -/
  | shl (x : Nibble)
  /-- 9XY0 SNE Vx, Vy -/
  | sneReg (x y : Nibble)
  /-- ANNN LD I, addr -/
  | ldI (nnn : Addr)
  /-- BNNN JP V0, addr -/
  | jpV0 (nnn : Addr)
  /-- CXKK RND Vx, byte -/
  | rnd (x : Nibble) (kk : Byte)
  /-- DXYN DRW Vx, Vy, nibble -/
  | drw (x y n : Nibble)
  /-- EX9E SKP Vx -/
  | skp (x : Nibble)
  /-- EXA1 SKNP Vx -/
  | sknp (x : Nibble)
  /-- FX07 LD Vx, DT -/
  | ldVxDt (x : Nibble)
  /-- FX0A LD Vx, K -/
  | ldVxK (x : Nibble)
  /-- FX15 LD DT, Vx -/
  | ldDtVx (x : Nibble)
  /-- FX18 LD ST, Vx -/
  | ldStVx (x : Nibble)
  /-- FX1E ADD I, Vx -/
  | addI (x : Nibble)
  /-- FX29 LD F, Vx -/
  | ldF (x : Nibble)
  /-- FX33 LD B, Vx -/
  | ldB (x : Nibble)
  /-- FX55 LD [I], Vx -/
  | stRegs (x : Nibble)
  /-- FX65 LD Vx, [I] -/
  | ldRegs (x : Nibble)
deriving DecidableEq, Repr

end Sys2Proof
end

