-- ==== Sys2Proof/WellFormed.lean ====
section
/-! DEFINITION. What is well formed. A WORD is legal when it matches a row of the opcode map of spec/30_encoding.md R75
(R78 lists the illegal ones): this is the check that can fail. An INSTRUCTION's operands must lie in their fields' ranges
(R72, R73); their types already say so, and Sys2Proof.Laws.wellFormed_all proves that no term fails it. -/
namespace Sys2Proof

/-- One row of the opcode map: w is the row's when (w AND mask) = pattern (R75). -/
structure OpcodeRow where
  mnemonic : String
  pattern : Word
  mask : Word
deriving DecidableEq, Repr

def OpcodeRow.matchesWord (row : OpcodeRow) (w : Word) : Bool := (w &&& row.mask) == row.pattern

/-- The opcode map of R75, families 0x0 to 0x7. -/
def opcodeMapLow : List OpcodeRow :=
  [⟨"CLS", 0x00E0, 0xFFFF⟩, ⟨"RET", 0x00EE, 0xFFFF⟩, ⟨"JP_addr", 0x1000, 0xF000⟩, ⟨"CALL_addr", 0x2000, 0xF000⟩,
   ⟨"SE_Vx__byte", 0x3000, 0xF000⟩, ⟨"SNE_Vx__byte", 0x4000, 0xF000⟩, ⟨"SE_Vx__Vy", 0x5000, 0xF00F⟩,
   ⟨"LD_Vx__byte", 0x6000, 0xF000⟩, ⟨"ADD_Vx__byte", 0x7000, 0xF000⟩]

/-- The opcode map of R75, families 0x8 to 0xD. -/
def opcodeMapMid : List OpcodeRow :=
  [⟨"LD_Vx__Vy", 0x8000, 0xF00F⟩, ⟨"OR_Vx__Vy", 0x8001, 0xF00F⟩, ⟨"AND_Vx__Vy", 0x8002, 0xF00F⟩,
   ⟨"XOR_Vx__Vy", 0x8003, 0xF00F⟩, ⟨"ADD_Vx__Vy", 0x8004, 0xF00F⟩, ⟨"SUB_Vx__Vy", 0x8005, 0xF00F⟩,
   ⟨"SHR_Vx", 0x8006, 0xF00F⟩, ⟨"SUBN_Vx__Vy", 0x8007, 0xF00F⟩, ⟨"SHL_Vx", 0x800E, 0xF00F⟩,
   ⟨"SNE_Vx__Vy", 0x9000, 0xF00F⟩, ⟨"LD_I__addr", 0xA000, 0xF000⟩, ⟨"JP_V0__addr", 0xB000, 0xF000⟩,
   ⟨"RND_Vx__byte", 0xC000, 0xF000⟩, ⟨"DRW_Vx__Vy__nibble", 0xD000, 0xF000⟩]

/-- The opcode map of R75, families 0xE and 0xF. -/
def opcodeMapHigh : List OpcodeRow :=
  [⟨"SKP_Vx", 0xE09E, 0xF0FF⟩, ⟨"SKNP_Vx", 0xE0A1, 0xF0FF⟩, ⟨"LD_Vx__DT", 0xF007, 0xF0FF⟩,
   ⟨"LD_Vx__K", 0xF00A, 0xF0FF⟩, ⟨"LD_DT__Vx", 0xF015, 0xF0FF⟩, ⟨"LD_ST__Vx", 0xF018, 0xF0FF⟩,
   ⟨"ADD_I__Vx", 0xF01E, 0xF0FF⟩, ⟨"LD_F__Vx", 0xF029, 0xF0FF⟩, ⟨"LD_B__Vx", 0xF033, 0xF0FF⟩,
   ⟨"LD__I___Vx", 0xF055, 0xF0FF⟩, ⟨"LD_Vx___I", 0xF065, 0xF0FF⟩]

/-- The opcode map of R75: 34 rows, named as spec/opcode_table.json names them. -/
def opcodeMap : List OpcodeRow := opcodeMapLow ++ opcodeMapMid ++ opcodeMapHigh

/-- A word is legal when some row of the opcode map matches it; every other word is illegal (R78). -/
def wordLegal (w : Word) : Bool := opcodeMap.any (·.matchesWord w)

/-- The row of spec/opcode_table.json an instruction stands for. -/
def Instr.mnemonic : Instr → String
  | .cls => "CLS"
  | .ret => "RET"
  | .jp _ => "JP_addr"
  | .call _ => "CALL_addr"
  | .seByte _ _ => "SE_Vx__byte"
  | .sneByte _ _ => "SNE_Vx__byte"
  | .seReg _ _ => "SE_Vx__Vy"
  | .ldByte _ _ => "LD_Vx__byte"
  | .addByte _ _ => "ADD_Vx__byte"
  | .ldReg _ _ => "LD_Vx__Vy"
  | .orReg _ _ => "OR_Vx__Vy"
  | .andReg _ _ => "AND_Vx__Vy"
  | .xorReg _ _ => "XOR_Vx__Vy"
  | .addReg _ _ => "ADD_Vx__Vy"
  | .subReg _ _ => "SUB_Vx__Vy"
  | .shr _ => "SHR_Vx"
  | .subnReg _ _ => "SUBN_Vx__Vy"
  | .shl _ => "SHL_Vx"
  | .sneReg _ _ => "SNE_Vx__Vy"
  | .ldI _ => "LD_I__addr"
  | .jpV0 _ => "JP_V0__addr"
  | .rnd _ _ => "RND_Vx__byte"
  | .drw _ _ _ => "DRW_Vx__Vy__nibble"
  | .skp _ => "SKP_Vx"
  | .sknp _ => "SKNP_Vx"
  | .ldVxDt _ => "LD_Vx__DT"
  | .ldVxK _ => "LD_Vx__K"
  | .ldDtVx _ => "LD_DT__Vx"
  | .ldStVx _ => "LD_ST__Vx"
  | .addI _ => "ADD_I__Vx"
  | .ldF _ => "LD_F__Vx"
  | .ldB _ => "LD_B__Vx"
  | .stRegs _ => "LD__I___Vx"
  | .ldRegs _ => "LD_Vx___I"

/-- A register index names one of V0..VF (R73). -/
def regOk (x : Nibble) : Bool := x.toNat < 16

/-- Every operand lies in its field's range (R72, R73). -/
def Instr.wellFormed : Instr → Bool
  | .cls | .ret => true
  | .jp nnn | .call nnn | .ldI nnn | .jpV0 nnn => nnn.toNat ≤ 0xFFF
  | .seByte x kk | .sneByte x kk | .ldByte x kk | .addByte x kk | .rnd x kk => regOk x && kk.toNat ≤ 0xFF
  | .seReg x y | .sneReg x y | .ldReg x y | .orReg x y | .andReg x y | .xorReg x y => regOk x && regOk y
  | .addReg x y | .subReg x y | .subnReg x y => regOk x && regOk y
  | .drw x y n => regOk x && regOk y && n.toNat ≤ 15
  | .shr x | .shl x | .skp x | .sknp x | .ldVxDt x | .ldVxK x | .ldDtVx x | .ldStVx x => regOk x
  | .addI x | .ldF x | .ldB x | .stRegs x | .ldRegs x => regOk x

end Sys2Proof
end

