-- ==== Sys2Proof/Decode.lean ====
section
/-! DEFINITION. The decoder (spec/30_encoding.md R70 to R80, spec/40_fetch_decode_cycle.md R100, R102, R103), total on any
word and any bytes, and after it the encoder written from the same formats. -/
namespace Sys2Proof

/-! The fields of a word, spec/00_scope.md R10. -/

/-- op = w[15:12], the family selector. -/
def fieldOp (w : Word) : Nibble := w.extractLsb' 12 4
/-- X = w[11:8]. -/
def fieldX (w : Word) : Nibble := w.extractLsb' 8 4
/-- Y = w[7:4]. -/
def fieldY (w : Word) : Nibble := w.extractLsb' 4 4
/-- N = w[3:0]. -/
def fieldN (w : Word) : Nibble := w.extractLsb' 0 4
/-- KK = w[7:0]. -/
def fieldKK (w : Word) : Byte := w.extractLsb' 0 8
/-- NNN = w[11:0]. -/
def fieldNNN (w : Word) : Addr := w.extractLsb' 0 12

/-- Why the decoder rejects its input. -/
inductive DecodeError where
  /-- The word matches no row of the opcode map (R78, R103). -/
  | opcodeError (w : Word)
  /-- Fewer than two bytes were given; the machine's own fetch always gives two (log entry 12). -/
  | truncated
deriving DecidableEq, Repr

/-- Family 0x0: the whole word selects. -/
def decodeFamily0 (w : Word) : Except DecodeError Instr :=
  if w = 0x00E0 then .ok .cls else if w = 0x00EE then .ok .ret else .error (.opcodeError w)

/-- Family 0x8: N selects. -/
def decodeFamily8 (w : Word) : Except DecodeError Instr :=
  match (fieldN w).toNat with
  | 0x0 => .ok (.ldReg (fieldX w) (fieldY w))
  | 0x1 => .ok (.orReg (fieldX w) (fieldY w))
  | 0x2 => .ok (.andReg (fieldX w) (fieldY w))
  | 0x3 => .ok (.xorReg (fieldX w) (fieldY w))
  | 0x4 => .ok (.addReg (fieldX w) (fieldY w))
  | 0x5 => .ok (.subReg (fieldX w) (fieldY w))
  | 0x6 => .ok (.shr (fieldX w))
  | 0x7 => .ok (.subnReg (fieldX w) (fieldY w))
  | 0xE => .ok (.shl (fieldX w))
  | _ => .error (.opcodeError w)

/-- Family 0xE: KK selects. -/
def decodeFamilyE (w : Word) : Except DecodeError Instr :=
  match (fieldKK w).toNat with
  | 0x9E => .ok (.skp (fieldX w))
  | 0xA1 => .ok (.sknp (fieldX w))
  | _ => .error (.opcodeError w)

/-- Family 0xF: KK selects. -/
def decodeFamilyF (w : Word) : Except DecodeError Instr :=
  match (fieldKK w).toNat with
  | 0x07 => .ok (.ldVxDt (fieldX w))
  | 0x0A => .ok (.ldVxK (fieldX w))
  | 0x15 => .ok (.ldDtVx (fieldX w))
  | 0x18 => .ok (.ldStVx (fieldX w))
  | 0x1E => .ok (.addI (fieldX w))
  | 0x29 => .ok (.ldF (fieldX w))
  | 0x33 => .ok (.ldB (fieldX w))
  | 0x55 => .ok (.stRegs (fieldX w))
  | 0x65 => .ok (.ldRegs (fieldX w))
  | _ => .error (.opcodeError w)

/-- Decode(w), R102: the top nibble selects the family (R74), the family's sub-select field the instruction (R75). The last
arm is unreachable: a nibble has 16 values (R80). -/
def decode (w : Word) : Except DecodeError Instr :=
  match (fieldOp w).toNat with
  | 0x0 => decodeFamily0 w
  | 0x1 => .ok (.jp (fieldNNN w))
  | 0x2 => .ok (.call (fieldNNN w))
  | 0x3 => .ok (.seByte (fieldX w) (fieldKK w))
  | 0x4 => .ok (.sneByte (fieldX w) (fieldKK w))
  | 0x5 => if fieldN w = 0 then .ok (.seReg (fieldX w) (fieldY w)) else .error (.opcodeError w)
  | 0x6 => .ok (.ldByte (fieldX w) (fieldKK w))
  | 0x7 => .ok (.addByte (fieldX w) (fieldKK w))
  | 0x8 => decodeFamily8 w
  | 0x9 => if fieldN w = 0 then .ok (.sneReg (fieldX w) (fieldY w)) else .error (.opcodeError w)
  | 0xA => .ok (.ldI (fieldNNN w))
  | 0xB => .ok (.jpV0 (fieldNNN w))
  | 0xC => .ok (.rnd (fieldX w) (fieldKK w))
  | 0xD => .ok (.drw (fieldX w) (fieldY w) (fieldN w))
  | 0xE => decodeFamilyE w
  | 0xF => decodeFamilyF w
  | _ => .error (.opcodeError w)

/-- The word two bytes make: the byte at the lower address is the high one (spec/20_memory.md R53). -/
def wordOfBytes (hi lo : Byte) : Word := hi ++ lo

/-- A word's bytes in address order (R53). -/
def bytesOfWord (w : Word) : List Byte := [w.extractLsb' 8 8, w.extractLsb' 0 8]

/-- Decode the instruction at the front of a byte sequence and give the rest (R70: always two bytes). -/
def decodeBytes : List Byte → Except DecodeError (Instr × List Byte)
  | hi :: lo :: rest => (decode (wordOfBytes hi lo)).map (·, rest)
  | _ => .error .truncated

/-- The word the table's numbering means: bit 0 is the word's least significant bit, and bits from nbits up are 0. -/
def tableWord (nbits w : Nat) : Word := BitVec.ofNat 16 (w % 2 ^ nbits)

/-- What the decoder reads from the instruction whose bits, numbered as spec/opcode_table.json numbers them, are w. -/
def decodeTableWord (nbits w : Nat) : Option Instr :=
  match decodeBytes (bytesOfWord (tableWord nbits w)) with
  | .ok (i, _) => some i
  | .error _ => none

/-! The formats of R71, most significant field first. -/

/-- Format A: op, NNN. -/
def wordA (op : Nibble) (nnn : Addr) : Word := op ++ nnn
/-- Formats XK and XF: op, X, then KK or the function byte. -/
def wordXK (op x : Nibble) (kk : Byte) : Word := op ++ x ++ kk
/-- Formats XYF and XYN: op, X, Y, then the function nibble or N. -/
def wordXY (op x y n : Nibble) : Word := op ++ x ++ y ++ n

/-- The word of an instruction. The ignored Y field of SHR and SHL is 0 (R81). -/
def encode : Instr → Word
  | .cls => 0x00E0
  | .ret => 0x00EE
  | .jp nnn => wordA 0x1 nnn
  | .call nnn => wordA 0x2 nnn
  | .seByte x kk => wordXK 0x3 x kk
  | .sneByte x kk => wordXK 0x4 x kk
  | .seReg x y => wordXY 0x5 x y 0x0
  | .ldByte x kk => wordXK 0x6 x kk
  | .addByte x kk => wordXK 0x7 x kk
  | .ldReg x y => wordXY 0x8 x y 0x0
  | .orReg x y => wordXY 0x8 x y 0x1
  | .andReg x y => wordXY 0x8 x y 0x2
  | .xorReg x y => wordXY 0x8 x y 0x3
  | .addReg x y => wordXY 0x8 x y 0x4
  | .subReg x y => wordXY 0x8 x y 0x5
  | .shr x => wordXY 0x8 x 0x0 0x6
  | .subnReg x y => wordXY 0x8 x y 0x7
  | .shl x => wordXY 0x8 x 0x0 0xE
  | .sneReg x y => wordXY 0x9 x y 0x0
  | .ldI nnn => wordA 0xA nnn
  | .jpV0 nnn => wordA 0xB nnn
  | .rnd x kk => wordXK 0xC x kk
  | .drw x y n => wordXY 0xD x y n
  | .skp x => wordXK 0xE x 0x9E
  | .sknp x => wordXK 0xE x 0xA1
  | .ldVxDt x => wordXK 0xF x 0x07
  | .ldVxK x => wordXK 0xF x 0x0A
  | .ldDtVx x => wordXK 0xF x 0x15
  | .ldStVx x => wordXK 0xF x 0x18
  | .addI x => wordXK 0xF x 0x1E
  | .ldF x => wordXK 0xF x 0x29
  | .ldB x => wordXK 0xF x 0x33
  | .stRegs x => wordXK 0xF x 0x55
  | .ldRegs x => wordXK 0xF x 0x65

end Sys2Proof
end

