-- ==== Sys2Proof/Config.lean ====
section
/-! DEFINITION. The implementation parameters of spec/00_scope.md R8 that have one value, and the two free values of the
spec: the random byte and the numbers of the status codes. FONT_BASE and FONT_IMAGE, which R8 leaves open with a default,
stand in Sys2Proof/Machine/Memory.lean. -/
namespace Sys2Proof

/-- The statuses a cycle (or a construction) can return, spec/60_exceptions.md R250. -/
inductive Machine.Status where
  | success
  | waiting
  | invalidStackPointer
  | invalidKey
  /-- OpcodeError, alias DecodeError. -/
  | opcodeError
  | addressOutOfRange
  | invalidDigit
  /-- Never returned by this block (R257). -/
  | invalidState
  /-- Never returned by this block (R258). -/
  | invalidRegister
  /-- Returned by construction only (spec/70_reset_and_hazards.md R282). -/
  | romTooBig
  /-- Returned by construction only (spec/70_reset_and_hazards.md R283). -/
  | romReadError
deriving DecidableEq, Repr

namespace Config

/-- MEM_SIZE: addresses 0x000 to 0xFFF. -/
def memSize : Nat := 4096

/-- PROGRAM_BASE: where the ROM is placed and where pc starts. -/
def programBase : Nat := 0x200

/-- ROM_MAX: 0xFFF - 0x200 bytes (spec/70_reset_and_hazards.md R282). -/
def romMax : Nat := 3583

/-- FONT_GLYPH_SIZE: bytes of one font glyph (D15). -/
def glyphSize : Nat := 5

/-- FREE VALUE (log entry 1): the random-byte source's n-th draw since reset, any value 0..255
(spec/43_register_alu.md R178, D19). -/
opaque randomByte : Nat → Byte

/-- FREE VALUE (log entry 10): STATUS_ENCODING, the number of each status other than Success
(spec/60_exceptions.md R250, D25). -/
opaque statusEncoding : Machine.Status → Nat

end Config
end Sys2Proof
end

