-- ==== Sys2Proof/Machine/State.lean ====
section
/-! DEFINITION. The machine's state: the closed list of spec/10_state.md R20, as plain data, with the reset values of R40. -/
namespace Sys2Proof.Machine

/-- Memory as the cells that differ from their reset contents, addresses strictly rising (Sys2Proof.Machine.Memory.wf);
an address not listed reads as its reset contents (Sys2Proof.Machine.resetByte). -/
abbrev Memory := List Host.Cell

/-- The 64 x 32 display, row by row: disp[y][x] (R31). -/
abbrev Display := Vector (Vector Bool 64) 32

structure State where
  /-- The 4096 byte cells (R34). -/
  mem : Memory
  /-- V0..VF (R21). -/
  V : Vector Byte 16
  /-- The index register (R24). -/
  I : Word
  /-- The address of the next instruction to fetch (R25). -/
  pc : Word
  /-- The 16 return-address entries (R27). -/
  stack : Vector Word 16
  /-- The stack pointer, 8 bits read as a signed value (R28). -/
  sp : Byte
  /-- The delay timer DT (R29). -/
  dt : Byte
  /-- The sound timer ST (R30). -/
  st : Byte
  /-- The display (R31). -/
  disp : Display
  /-- draw_flag (R32). -/
  drawFlag : Bool
  /-- The keypad snapshot, true = pressed (R33). -/
  key : Vector Bool 16
  /-- THE MODEL'S OWN: how many random bytes have been drawn (log entry 1). It only picks the next free value. -/
  draws : Nat
deriving DecidableEq, Repr

/-- The error statuses that end a run (spec/60_exceptions.md R250, R253). Each is the spec's own stop and changes no state
(R251); stopping is safe (log entry 6). -/
inductive Fault where
  /-- Raised by RET and CALL, with the stack pointer they found (R120, R121, R123). Safe. -/
  | invalidStackPointer (sp : Byte)
  /-- Raised by SKP and SKNP when Vx > 0xF, with Vx (R147). Safe. -/
  | invalidKey (v : Byte)
  /-- Raised by the decode of an illegal word, with the word (R103). Safe. -/
  | opcodeError (w : Word)
  /-- Raised by the fetch, DRW, LD B, LD [I] and LD Vx,[I], with the first address of the access (R54, R101). Safe. -/
  | addressOutOfRange (a : Word)
  /-- Raised by LD F when Vx > 0xF, with Vx (R193). Safe. -/
  | invalidDigit (v : Byte)
  /-- Raised by the construction only: the ROM is longer than 3583 bytes (R282). Safe. -/
  | romTooBig
  /-- Raised by the construction only: the ROM cannot be read (R283). Safe. -/
  | romReadError
deriving DecidableEq, Repr

/-- What the model gives no meaning to. No instruction of this hardware is left without one, so no step refuses. -/
inductive Refusal where
  /-- Raised by an arm of Sys2Proof.Machine.exec that has no meaning yet; there is none. Safe. -/
  | notModelled (mnemonic : String)
deriving DecidableEq, Repr

/-- What a meaning answers. -/
abbrev Result := Host.Outcome State Fault Refusal

/-- The machine right after construction with an empty ROM (R40, R280): every field zero, pc at 0x200, memory at its reset
contents. A program is placed by Sys2Proof.Machine.loadRom (log entry 3). -/
def State.reset : State where
  mem := []
  V := Vector.replicate 16 0
  I := 0
  pc := BitVec.ofNat 16 Config.programBase
  stack := Vector.replicate 16 0
  sp := 0
  dt := 0
  st := 0
  disp := Vector.replicate 32 (Vector.replicate 64 false)
  drawFlag := false
  key := Vector.replicate 16 false
  draws := 0

end Sys2Proof.Machine
end

