-- ==== Sys2Proof/Machine/Memory.lean ====
section
/-! DEFINITION. Memory (spec/20_memory.md): what an address reads as at reset, reads, writes, ranges, the canonical form. -/
namespace Sys2Proof.Machine

/-- FONT_BASE, an OPEN parameter at the spec's default (D15, log entry 2). -/
def fontBase : Nat := 0x000

/-- FONT_IMAGE, glyphs 0 to 7, the spec's default table (spec/93_implementation_defined.md Part 3, log entry 2). -/
def fontImageLow : List Byte :=
  [0xF0, 0x90, 0x90, 0x90, 0xF0,  0x20, 0x60, 0x20, 0x20, 0x70,  0xF0, 0x10, 0xF0, 0x80, 0xF0,  0xF0, 0x10, 0xF0, 0x10, 0xF0,
   0x90, 0x90, 0xF0, 0x10, 0x10,  0xF0, 0x80, 0xF0, 0x10, 0xF0,  0xF0, 0x80, 0xF0, 0x90, 0xF0,  0xF0, 0x10, 0x20, 0x40, 0x40]

/-- FONT_IMAGE, glyphs 8 to F. -/
def fontImageHigh : List Byte :=
  [0xF0, 0x90, 0xF0, 0x90, 0xF0,  0xF0, 0x90, 0xF0, 0x10, 0xF0,  0xF0, 0x90, 0xF0, 0x90, 0x90,  0xE0, 0x90, 0xE0, 0x90, 0xE0,
   0xF0, 0x80, 0x80, 0x80, 0xF0,  0xE0, 0x90, 0x90, 0x90, 0xE0,  0xF0, 0x80, 0xF0, 0x80, 0xF0,  0xF0, 0x80, 0xF0, 0x80, 0x80]

/-- FONT_IMAGE: 16 glyphs of 5 bytes. -/
def fontImage : List Byte := fontImageLow ++ fontImageHigh

/-- What an address holds at reset, and what an unlisted address reads as: the font image at FONT_BASE, 0 elsewhere
(spec/10_state.md R38, R40, R41). -/
def resetByte (a : Nat) : Byte := if fontBase ≤ a then fontImage.getD (a - fontBase) 0 else 0

/-- The byte at an address. -/
def Memory.read : Memory → Nat → Byte
  | [], a => resetByte a
  | (k, b) :: m, a => if k = a then b else Memory.read m a

/-- Put a cell before the first one at a higher address. -/
def Memory.insert (a : Nat) (b : Byte) : Memory → Memory
  | [] => [(a, b)]
  | (k, c) :: m => if a < k then (a, b) :: (k, c) :: m else (k, c) :: Memory.insert a b m

/-- Write a byte, keeping the canonical form: a byte equal to the reset contents is not listed. -/
def Memory.write (m : Memory) (a : Nat) (b : Byte) : Memory :=
  let rest := m.filter (fun c => c.1 ≠ a)
  if b = resetByte a then rest else Memory.insert a b rest

/-- Write bytes at ascending addresses from a (R65). -/
def Memory.store (m : Memory) (a : Nat) : List Byte → Memory
  | [] => m
  | b :: bs => Memory.store (m.write a b) (a + 1) bs

/-- Read n bytes at ascending addresses from a (R65). -/
def Memory.load (m : Memory) (a n : Nat) : List Byte := (List.range n).map (fun k => m.read (a + k))

/-- The canonical form: addresses strictly rising and inside memory, no cell equal to its reset contents. -/
abbrev Memory.wf (m : Memory) : Prop :=
  (m.map (·.1)).Pairwise (· < ·) ∧ ∀ c ∈ m, c.1 < Config.memSize ∧ c.2 ≠ resetByte c.1

/-- InRange(a, n) of R54, for n ≥ 1: addresses are exact integers (R55). -/
def inRange (a n : Nat) : Bool := a + n - 1 ≤ 0xFFF

end Sys2Proof.Machine
end

