-- ==== Sys2Proof/Machine/Ops.lean ====
section
/-! DEFINITION. The named operations over the state: register access, the next-pc selection and commit of
spec/40_fetch_decode_cycle.md R104 to R106, raising an error and waiting (spec/00_scope.md R14), the fetch (R100, R101). -/
namespace Sys2Proof.Machine

/-- V[x] (R21). -/
def State.v (s : State) (x : Nibble) : Byte := s.V[x.toNat]'x.isLt

/-- stack[k] (R27). -/
def State.stackEntry (s : State) (k : Nibble) : Word := s.stack[k.toNat]'k.isLt

/-- key[k] (R33): whether key k is pressed. -/
def State.pressed (s : State) (k : Nibble) : Bool := s.key[k.toNat]'k.isLt

/-! The updates, one per field; no meaning writes a field in any other way. -/

/-- V[x] <- b. -/
def State.setV (s : State) (x : Nibble) (b : Byte) : State := { s with V := s.V.set x.toNat b x.isLt }
/-- All of V0..VF. -/
def State.setRegs (s : State) (v : Vector Byte 16) : State := { s with V := v }
/-- I <- w. -/
def State.setI (s : State) (w : Word) : State := { s with I := w }
/-- pc <- w. -/
def State.setPc (s : State) (w : Word) : State := { s with pc := w }
/-- stack[k] <- w. -/
def State.setStackEntry (s : State) (k : Nibble) (w : Word) : State := { s with stack := s.stack.set k.toNat w k.isLt }
/-- sp <- b. -/
def State.setSp (s : State) (b : Byte) : State := { s with sp := b }
/-- DT <- b. -/
def State.setDt (s : State) (b : Byte) : State := { s with dt := b }
/-- ST <- b. -/
def State.setSt (s : State) (b : Byte) : State := { s with st := b }
/-- The whole display. -/
def State.setDisp (s : State) (d : Display) : State := { s with disp := d }
/-- draw_flag <- b. -/
def State.setDrawFlag (s : State) (b : Bool) : State := { s with drawFlag := b }
/-- key[k] <- b, a write of the host only (R33). -/
def State.setKey (s : State) (k : Nibble) (b : Bool) : State := { s with key := s.key.set k.toNat b k.isLt }
/-- The memory. -/
def State.setMem (s : State) (m : Memory) : State := { s with mem := m }
/-- The model's own count of random draws. -/
def State.setDraws (s : State) (n : Nat) : State := { s with draws := n }

/-- The byte of memory at address a. -/
def State.byteAt (s : State) (a : Nat) : Byte := s.mem.read a

/-- disp[y][x] (R31). -/
def Display.pixel (d : Display) (x : Fin 64) (y : Fin 32) : Bool := d[y][x]

/-- disp[y][x] <- disp[y][x] XOR 1. -/
def Display.toggle (d : Display) (x : Fin 64) (y : Fin 32) : Display := d.set y (d[y].set x (!d[y][x]))

/-- The blank display (R231). -/
def Display.blank : Display := Vector.replicate 32 (Vector.replicate 64 false)

/-- disp[y][x] of a state. -/
def State.pixel (s : State) (x : Fin 64) (y : Fin 32) : Bool := Display.pixel s.disp x y

/-- The next-pc kinds of R105. -/
inductive NextPc where
  | seq
  | skip (c : Bool)
  | jump (t : Word)
  | ret (t : Word)
deriving DecidableEq, Repr

/-- NextPc(kind, p), modulo 2^16 (R105). -/
def NextPc.target : NextPc → Word → Word
  | .seq, p => p + 2
  | .skip c, p => if c then p + 4 else p + 2
  | .jump t, _ => t
  | .ret t, _ => t + 2

/-- Done(W, nxt), R104 to R106: the state w that holds the instruction's writes, with pc written once from the pc that s, the
state at the start of the cycle, holds. -/
def done (s w : State) (nxt : NextPc) : Result := .next (w.setPc (nxt.target s.pc))

/-- raise: the cycle ends with an error status and the state stays s (R14, spec/60_exceptions.md R251 to R253). The hardware
has no trap entry and no trap return (R255, R256), so this is all an error does. -/
def raise (f : Fault) : Result := .fault f

/-- wait: the cycle ends with the status Waiting and changes nothing (R14, log entry 5). -/
def wait (s : State) : Result := .next s

/-- The fetch: the range check of R101, then the big-endian word at pc (R100). -/
def fetch (s : State) : Except Fault Word :=
  if inRange s.pc.toNat 2 then .ok (wordOfBytes (s.byteAt s.pc.toNat) (s.byteAt (s.pc.toNat + 1)))
  else .error (.addressOutOfRange s.pc)

/-- The word w placed where the next fetch reads it, in its byte order (R53); nothing if that is outside memory. -/
def placeWord (s : State) (w : Word) : State :=
  if inRange s.pc.toNat 2 then s.setMem (s.mem.store s.pc.toNat (bytesOfWord w)) else s

end Sys2Proof.Machine
end

