-- ==== Sys2Proof/Machine/Operands.lean ====
section
/-! DEFINITION. The operand forms: immediates extended to 16 bits (spec/30_encoding.md R72), the implicit V0, addresses
through I (spec/44_index_memory.md R190), key and digit indices taken from a register, register blocks V0..VX. -/
namespace Sys2Proof.Machine

/-- zext_16(NNN) (R72). -/
def addrOperand (nnn : Addr) : Word := nnn.setWidth 16

/-- VF's index, the flag register (R22). -/
def flagIdx : Nibble := 0xF

/-- The target of JP V0, addr: V0 + NNN, no 12-bit mask (spec/41_control_transfer.md R125). -/
def offsetTarget (s : State) (nnn : Addr) : Word := (s.v 0).setWidth 16 + addrOperand nnn

/-- The address of the first byte an access through I reaches, as an exact integer (R55, R190). -/
def indexAddr (s : State) : Nat := s.I.toNat

/-- Whether an 8-bit value names a key or a digit, 0x0..0xF (spec/42_skips.md R147, R193). -/
def isHexDigit (v : Byte) : Bool := v.toNat ≤ 0xF

/-- The key or digit a value that passes isHexDigit names. -/
def hexDigit (v : Byte) : Nibble := v.setWidth 4

/-- FONT_BASE + FONT_GLYPH_SIZE * digit (R193). -/
def glyphAddr (v : Byte) : Word := BitVec.ofNat 16 (fontBase + Config.glyphSize * v.toNat)

/-- The bytes of the BCD form of v: hundreds, tens, ones (R194). -/
def bcdBytes (v : Byte) : List Byte :=
  [BitVec.ofNat 8 (v.toNat / 100), BitVec.ofNat 8 (v.toNat / 10 % 10), BitVec.ofNat 8 (v.toNat % 10)]

/-- The block read of V[0..x] (spec/10_state.md R23). -/
def regBlock (s : State) (x : Nibble) : List Byte := s.V.toList.take (x.toNat + 1)

/-- The block write V[k] <- memory[a + k] for k below n, ascending (R23, R65). -/
def loadBlock (m : Memory) (a : Nat) (v : Vector Byte 16) : Nat → Vector Byte 16
  | 0 => v
  | n + 1 => (loadBlock m a v n).setIfInBounds n (m.read (a + n))

/-- All 16 keys, lowest first. -/
def allKeys : List Nibble := (List.range 16).map (BitVec.ofNat 4)

/-- The lowest-numbered pressed key, if any is pressed (spec/45_timers_keys.md R211, R212). -/
def lowestKey (s : State) : Option Nibble := allKeys.find? s.pressed

/-- The stack check common to CALL and RET: sp < 0 or sp >= 16, sp read as a signed value (R120). -/
def stackPtrInvalid (sp : Byte) : Bool := sp.toInt < 0 || 16 ≤ sp.toInt

/-- The entry a stack pointer in 0..15 selects. -/
def stackIdx (sp : Byte) : Nibble := sp.setWidth 4

end Sys2Proof.Machine
end

