-- ==== Sys2Proof/Machine/Flags.lean ====
section
/-! DEFINITION. The flag computations (spec/43_register_alu.md R160, R161, R168 to R172; spec/46_display.md R233). VF is the
only flag (spec/10_state.md R35); its value as a flag is 0 or 1. -/
namespace Sys2Proof.Machine

/-- A flag as VF's byte. -/
def flagByte (f : Bool) : Byte := if f then 1 else 0

/-- The exact sum exceeds 255 (R168). -/
def carryOut (a b : Byte) : Bool := 255 < a.toNat + b.toNat

/-- a - b needs no borrow: a >= b (R169, R171). -/
def noBorrow (a b : Byte) : Bool := b.toNat ≤ a.toNat

/-- The bit a right shift by one shifts out (R170). -/
def shiftOutRight (a : Byte) : Bool := a.getLsbD 0

/-- The bit a left shift by one shifts out (R172). -/
def shiftOutLeft (a : Byte) : Bool := a.getLsbD 7

/-- An ALU result without a flag: V[x] <- b, next-pc kind Seq. -/
def writeReg (s : State) (x : Nibble) (b : Byte) : Result := done s (s.setV x b) .seq

/-- An ALU result with a flag: V[x] <- b, then V[0xF] <- the flag, which remains when x = 0xF (R161, D11, log entry 11). -/
def writeRegFlag (s : State) (x : Nibble) (b : Byte) (f : Bool) : Result :=
  done s ((s.setV x b).setV flagIdx (flagByte f)) .seq

end Sys2Proof.Machine
end

