-- ==== Sys2Proof/Machine/Alu.lean ====
section
/-! DEFINITION. Register loads, the 8-bit ALU and the random byte (spec/43_register_alu.md R160 to R178). -/
namespace Sys2Proof.Machine

/-- LD Vx, byte, R162. -/
def execLdByte (x : Nibble) (kk : Byte) (s : State) : Result := writeReg s x kk

/-- ADD Vx, byte, R163: no flag. -/
def execAddByte (x : Nibble) (kk : Byte) (s : State) : Result := writeReg s x (s.v x + kk)

/-- LD Vx, Vy, R164. -/
def execLdReg (x y : Nibble) (s : State) : Result := writeReg s x (s.v y)

/-- OR Vx, Vy, R165. -/
def execOrReg (x y : Nibble) (s : State) : Result := writeReg s x (s.v x ||| s.v y)

/-- AND Vx, Vy, R166. -/
def execAndReg (x y : Nibble) (s : State) : Result := writeReg s x (s.v x &&& s.v y)

/-- XOR Vx, Vy, R167. -/
def execXorReg (x y : Nibble) (s : State) : Result := writeReg s x (s.v x ^^^ s.v y)

/-- ADD Vx, Vy, R168: VF = carry. -/
def execAddReg (x y : Nibble) (s : State) : Result :=
  writeRegFlag s x (s.v x + s.v y) (carryOut (s.v x) (s.v y))

/-- SUB Vx, Vy, R169: VF = no borrow. -/
def execSubReg (x y : Nibble) (s : State) : Result :=
  writeRegFlag s x (s.v x - s.v y) (noBorrow (s.v x) (s.v y))

/-- SHR Vx, R170: VF = the old bit 0; Vy is not read. -/
def execShr (x : Nibble) (s : State) : Result := writeRegFlag s x (s.v x >>> 1) (shiftOutRight (s.v x))

/-- SUBN Vx, Vy, R171: VF = no borrow of Vy - Vx. -/
def execSubnReg (x y : Nibble) (s : State) : Result :=
  writeRegFlag s x (s.v y - s.v x) (noBorrow (s.v y) (s.v x))

/-- SHL Vx, R172: VF = the old bit 7; Vy is not read. -/
def execShl (x : Nibble) (s : State) : Result := writeRegFlag s x (s.v x <<< 1) (shiftOutLeft (s.v x))

/-- RND Vx, byte, R178: one fresh draw, a free value (log entry 1), AND KK. -/
def execRnd (x : Nibble) (kk : Byte) (s : State) : Result :=
  writeReg (s.setDraws (s.draws + 1)) x (Config.randomByte s.draws &&& kk)

end Sys2Proof.Machine
end

