-- ==== Sys2Proof/Machine/Control.lean ====
section
/-! DEFINITION. Control transfer and the call stack (spec/41_control_transfer.md R120 to R125). -/
namespace Sys2Proof.Machine

/-- RET, R121: an invalid or empty stack raises; else pop, and resume after the CALL whose address was popped. -/
def execRet (s : State) : Result :=
  if stackPtrInvalid s.sp then raise (.invalidStackPointer s.sp)
  else if s.sp = 0 then raise (.invalidStackPointer s.sp)
  else done s (s.setSp (s.sp - 1)) (.ret (s.stackEntry (stackIdx s.sp)))

/-- JP addr, R122. -/
def execJp (nnn : Addr) (s : State) : Result := done s s (.jump (addrOperand nnn))

/-- CALL addr, R123: an invalid or full stack raises; else push the address of the CALL itself and jump. -/
def execCall (nnn : Addr) (s : State) : Result :=
  if stackPtrInvalid s.sp then raise (.invalidStackPointer s.sp)
  else if 16 ≤ s.sp.toInt + 1 then raise (.invalidStackPointer s.sp)
  else done s ((s.setSp (s.sp + 1)).setStackEntry (stackIdx (s.sp + 1)) s.pc) (.jump (addrOperand nnn))

/-- JP V0, addr, R125. -/
def execJpV0 (nnn : Addr) (s : State) : Result := done s s (.jump (offsetTarget s nnn))

end Sys2Proof.Machine
end

