-- ==== Sys2Proof/Machine/Draw.lean ====
section
/-! DEFINITION. The display instructions (spec/46_display.md R230 to R234). -/
namespace Sys2Proof.Machine

/-- CLS, R231: draw_flag is set even when the display was blank (C10). -/
def execCls (s : State) : Result := done s ((s.setDisp Display.blank).setDrawFlag true) .seq

/-- px = (x0 + c) mod 64, the display column of sprite column c (R233, R234 a). -/
def columnOf (x0 : Byte) (c : Nat) : Fin 64 := ⟨(x0.toNat + c) % 64, Nat.mod_lt _ (by decide)⟩

/-- py = (y0 + r) mod 32, the display row of sprite row r. -/
def rowOf (y0 : Byte) (r : Nat) : Fin 32 := ⟨(y0.toNat + r) % 32, Nat.mod_lt _ (by decide)⟩

/-- One bit of a sprite, column c of row r at (x0, y0), over a display and the collision so far: bit 7 - c of the row's byte
(R232) toggles the wrapped pixel (R234 a); a pixel that goes from 1 to 0 is a collision (R233). -/
def drawBit (x0 y0 : Byte) (r : Nat) (b : Byte) (acc : Display × Bool) (c : Nat) : Display × Bool :=
  if b.getLsbD (7 - c) then
    (acc.1.toggle (columnOf x0 c) (rowOf y0 r), acc.2 || acc.1.pixel (columnOf x0 c) (rowOf y0 r))
  else acc

/-- One row of a sprite, columns 0 to 7. -/
def drawRow (x0 y0 : Byte) (r : Nat) (b : Byte) (acc : Display × Bool) : Display × Bool :=
  (List.range 8).foldl (drawBit x0 y0 r b) acc

/-- The rows of a sprite from row r on. -/
def drawRows (x0 y0 : Byte) : Nat → List Byte → Display × Bool → Display × Bool
  | _, [], acc => acc
  | r, b :: bs, acc => drawRows x0 y0 (r + 1) bs (drawRow x0 y0 r b acc)

/-- DRW Vx, Vy, nibble, R233: coordinates and bytes are read first; no range check when N = 0 (R234 c). -/
def execDrw (x y n : Nibble) (s : State) : Result :=
  if n ≠ 0 ∧ inRange (indexAddr s) n.toNat = false then raise (.addressOutOfRange s.I)
  else
    let drawn := drawRows (s.v x) (s.v y) 0 (s.mem.load (indexAddr s) n.toNat) (s.disp, false)
    done s (((s.setDisp drawn.1).setDrawFlag true).setV flagIdx (flagByte drawn.2)) .seq

end Sys2Proof.Machine
end

