-- ==== Sys2Proof/Machine/IndexMemory.lean ====
section
/-! DEFINITION. The index register, loads and stores (spec/44_index_memory.md R190 to R196). -/
namespace Sys2Proof.Machine

/-- LD I, addr, R191. -/
def execLdI (nnn : Addr) (s : State) : Result := done s (s.setI (addrOperand nnn)) .seq

/-- ADD I, Vx, R192: modulo 2^16, no flag. -/
def execAddI (x : Nibble) (s : State) : Result := done s (s.setI (s.I + (s.v x).setWidth 16)) .seq

/-- LD F, Vx, R193. -/
def execLdF (x : Nibble) (s : State) : Result :=
  if isHexDigit (s.v x) then done s (s.setI (glyphAddr (s.v x))) .seq else raise (.invalidDigit (s.v x))

/-- LD B, Vx, R194. -/
def execLdB (x : Nibble) (s : State) : Result :=
  if inRange (indexAddr s) 3 then done s (s.setMem (s.mem.store (indexAddr s) (bcdBytes (s.v x)))) .seq
  else raise (.addressOutOfRange s.I)

/-- LD [I], Vx, R195. -/
def execStRegs (x : Nibble) (s : State) : Result :=
  if inRange (indexAddr s) (x.toNat + 1) then
    done s (s.setMem (s.mem.store (indexAddr s) (regBlock s x))) .seq
  else raise (.addressOutOfRange s.I)

/-- LD Vx, [I], R196. -/
def execLdRegs (x : Nibble) (s : State) : Result :=
  if inRange (indexAddr s) (x.toNat + 1) then
    done s (s.setRegs (loadBlock s.mem (indexAddr s) s.V (x.toNat + 1))) .seq
  else raise (.addressOutOfRange s.I)

end Sys2Proof.Machine
end

