-- ==== Sys2Proof/Machine/Skips.lean ====
section
/-! DEFINITION. Conditional skips (spec/42_skips.md R140 to R147). -/
namespace Sys2Proof.Machine

/-- The skip mechanism, R140: no write, next-pc kind Skip(c). -/
def skipIf (s : State) (c : Bool) : Result := done s s (.skip c)

/-- A skip on the key V[x] names, R147: a value above 0xF raises InvalidKey; else skip if the key's state is want. -/
def skipOnKey (s : State) (x : Nibble) (want : Bool) : Result :=
  if isHexDigit (s.v x) then skipIf s (s.pressed (hexDigit (s.v x)) == want) else raise (.invalidKey (s.v x))

/-- SE Vx, byte, R141. -/
def execSeByte (x : Nibble) (kk : Byte) (s : State) : Result := skipIf s (s.v x == kk)

/-- SNE Vx, byte, R142. -/
def execSneByte (x : Nibble) (kk : Byte) (s : State) : Result := skipIf s (s.v x != kk)

/-- SE Vx, Vy, R143. -/
def execSeReg (x y : Nibble) (s : State) : Result := skipIf s (s.v x == s.v y)

/-- SNE Vx, Vy, R144. -/
def execSneReg (x y : Nibble) (s : State) : Result := skipIf s (s.v x != s.v y)

/-- SKP Vx, R145. -/
def execSkp (x : Nibble) (s : State) : Result := skipOnKey s x true

/-- SKNP Vx, R146. -/
def execSknp (x : Nibble) (s : State) : Result := skipOnKey s x false

end Sys2Proof.Machine
end

