-- ==== Sys2Proof/Machine/TimersKeys.lean ====
section
/-! DEFINITION. Timer access and the key wait (spec/45_timers_keys.md R210 to R214). -/
namespace Sys2Proof.Machine

/-- LD Vx, DT, R210. -/
def execLdVxDt (x : Nibble) (s : State) : Result := writeReg s x s.dt

/-- LD Vx, K, R211: the lowest pressed key (R212), or Waiting. -/
def execLdVxK (x : Nibble) (s : State) : Result :=
  match lowestKey s with
  | none => wait s
  | some k => writeReg s x (k.setWidth 8)

/-- LD DT, Vx, R213. -/
def execLdDtVx (x : Nibble) (s : State) : Result := done s (s.setDt (s.v x)) .seq

/-- LD ST, Vx, R214. -/
def execLdStVx (x : Nibble) (s : State) : Result := done s (s.setSt (s.v x)) .seq

end Sys2Proof.Machine
end

