-- ==== Sys2Proof/Machine/Step.lean ====
section
/-! DEFINITION. One cycle (spec/40_fetch_decode_cycle.md R107): fetch, decode, execute, in the order of the checks that
spec/60_exceptions.md R254 gives. -/
namespace Sys2Proof.Machine

/-- One cycle of the core. The host's actions between cycles are in Sys2Proof/Machine/HostActions.lean (log entry 4). -/
def step (s : State) : Host.Outcome State Fault Refusal :=
  match fetch s with
  | .error f => raise f
  | .ok w =>
    match decode w with
    | .error _ => raise (.opcodeError w)
    | .ok i => exec i s

/-- The state s with the instruction whose bits, as spec/opcode_table.json numbers them, are w placed at pc (log entry 3). -/
def State.withFetchWord (s : State) (nbits w : Nat) : State := placeWord s (tableWord nbits w)

end Sys2Proof.Machine
end

