-- ==== Sys2Proof/Machine/Cycle.lean ====
section
/-! DEFINITION. The status output: Cycle(s) -> (status, s') of spec/40_fetch_decode_cycle.md R107. -/
namespace Sys2Proof.Machine

/-- The status that names an error (spec/60_exceptions.md R250). -/
def Fault.status : Fault → Status
  | .invalidStackPointer _ => .invalidStackPointer
  | .invalidKey _ => .invalidKey
  | .opcodeError _ => .opcodeError
  | .addressOutOfRange _ => .addressOutOfRange
  | .invalidDigit _ => .invalidDigit
  | .romTooBig => .romTooBig
  | .romReadError => .romReadError

/-- Whether this cycle is a key wait with no key pressed (spec/45_timers_keys.md R211). -/
def waiting (s : State) : Bool :=
  match fetch s with
  | .error _ => false
  | .ok w =>
    match decode w with
    | .ok (.ldVxK _) => (lowestKey s).isNone
    | _ => false

/-- One cycle with its status: an error leaves the state as it was (R251). None would mean a refusal, which never happens. -/
def cycle (s : State) : Option (Status × State) :=
  match step s with
  | .next t => some (if waiting s then .waiting else .success, t)
  | .fault f => some (f.status, s)
  | .refused _ => none

/-- The number on the status output: Success is 0, the others are STATUS_ENCODING's (R250, log entry 10). -/
def statusCode : Status → Nat
  | .success => 0
  | st => Config.statusEncoding st

end Sys2Proof.Machine
end

