-- ==== Sys2Proof/Machine/HostActions.lean ====
section
/-! DEFINITION. What the world outside the core does: the host's actions between cycles (spec/70_reset_and_hazards.md R292)
and the construction with a ROM (R280 to R284). -/
namespace Sys2Proof.Machine

/-- The host's writes between two cycles (R292). Reading state and stopping the run write nothing. -/
inductive HostAction where
  /-- Write one keypad entry (spec/10_state.md R33). -/
  | setKey (k : Nibble) (pressed : Bool)
  /-- One timer tick (spec/60_exceptions.md R262). -/
  | tick
  /-- Consume the draw flag (spec/10_state.md R32). -/
  | clearDrawFlag
deriving DecidableEq, Repr

/-- A timer after a tick: one less, and 0 stays 0 (R262, D22). -/
def tickTimer (t : Byte) : Byte := if t = 0 then 0 else t - 1

/-- The state after one host action. -/
def hostAct (s : State) : HostAction → State
  | .setKey k b => s.setKey k b
  | .tick => (s.setDt (tickTimer s.dt)).setSt (tickTimer s.st)
  | .clearDrawFlag => s.setDrawFlag false

/-- The state after any number of host actions, in their order. -/
def hostActs (s : State) (acts : List HostAction) : State := acts.foldl hostAct s

/-- Construction with what the ROM collaborator supplies (R280 to R283): none when the ROM cannot be read; a ROM over ROM_MAX
is rejected before any copy; else the reset state with the bytes at 0x200 on. -/
def loadRom (rom : Option (List Byte)) : Result :=
  match rom with
  | none => raise .romReadError
  | some bytes =>
    if Config.romMax < bytes.length then raise .romTooBig
    else .next (State.reset.setMem (State.reset.mem.store Config.programBase bytes))

end Sys2Proof.Machine
end

