-- ==== Sys2Proof/Machine/Run.lean ====
section
/-! DEFINITION. A run and its end, as spec/70_reset_and_hazards.md R295 (D33) defines them for a model: FAULTED, WAITING, END. The
core itself never halts (R294), and step takes no notice of any of this (log entry 21). -/
namespace Sys2Proof.Machine

/-- pc addresses a self-jump: the word fetched there is 1NNN, and NNN is that address (R295, R296). -/
def atSelfJump (s : State) : Bool :=
  match fetch s with
  | .error _ => false
  | .ok w =>
    match decode w with
    | .ok (.jp nnn) => addrOperand nnn == s.pc
    | _ => false

/-- Where a run stands (R295). -/
inductive RunStatus where
  /-- Neither of the others. -/
  | running
  /-- The last cycle returned Waiting. -/
  | waiting
  /-- FAULTED: a cycle returned this error status. Never a normal end. -/
  | faulted (status : Status)
  /-- END: pc addresses a self-jump. -/
  | ended
deriving DecidableEq, Repr

/-- A run is over once it is FAULTED or has reached its END. -/
def RunStatus.isOver : RunStatus → Bool
  | .faulted _ | .ended => true
  | .running | .waiting => false

/-- A run: where it stands, and the state it has reached. -/
structure Run where
  status : RunStatus
  state : State
deriving DecidableEq, Repr

/-- What happens next in a run: a cycle, or a host action between two cycles (R292). -/
inductive RunEvent where
  | cycle
  | host (a : HostAction)
deriving DecidableEq, Repr

/-- Where a run in state t stands when no error has been returned and other is its status away from a self-jump. -/
def runStatusAt (other : RunStatus) (t : State) : RunStatus := if atSelfJump t then .ended else other

/-- Where a run stands after a cycle that returned this status and led to t (R295; 60_exceptions.md R253). -/
def runStatusAfter (t : State) : Status → RunStatus
  | .success => runStatusAt .running t
  | .waiting => runStatusAt .waiting t
  | .invalidStackPointer => .faulted .invalidStackPointer
  | .invalidKey => .faulted .invalidKey
  | .opcodeError => .faulted .opcodeError
  | .addressOutOfRange => .faulted .addressOutOfRange
  | .invalidDigit => .faulted .invalidDigit
  | .invalidState => .faulted .invalidState
  | .invalidRegister => .faulted .invalidRegister
  | .romTooBig => .faulted .romTooBig
  | .romReadError => .faulted .romReadError

/-- A run before its first cycle. -/
def runStart (s : State) : Run := { status := runStatusAt .running s, state := s }

/-- A run after one more event. A run that is over stays at its end state (R296: the state when pc FIRST addresses the
self-jump). None would mean a refusal, which never happens. -/
def runEvent (r : Run) (e : RunEvent) : Option Run :=
  if r.status.isOver then some r
  else
    match e with
    | .host a => some { r with state := hostAct r.state a }
    | .cycle => (cycle r.state).map fun out => { status := runStatusAfter out.2 out.1, state := out.2 }

/-- A run after a list of events. -/
def runEvents : Run → List RunEvent → Option Run
  | r, [] => some r
  | r, e :: es => (runEvent r e).bind fun r' => runEvents r' es

end Sys2Proof.Machine
end

