-- ==== Sys2Proof/Safety.lean ====
section
/-! DEFINITION. The terms claims are stated in: the places of the machine, what a step may change, where an instruction stops,
the invariant, the runs. -/
namespace Sys2Proof.Machine

/-- Every place of the machine that holds a value: spec/10_state.md R20, memory byte by byte, and the model's own counter. -/
inductive Place where
  | v (x : Nibble)
  | index
  | pc
  | stack (k : Nibble)
  | sp
  | dt
  | st
  | pixel (x : Fin 64) (y : Fin 32)
  | drawFlag
  | key (k : Nibble)
  | byte (a : Nat)
  | draws
deriving DecidableEq, Repr

/-- What a place holds, as a number. -/
def Place.get (s : State) : Place → Nat
  | .v x => (s.v x).toNat
  | .index => s.I.toNat
  | .pc => s.pc.toNat
  | .stack k => (s.stackEntry k).toNat
  | .sp => s.sp.toNat
  | .dt => s.dt.toNat
  | .st => s.st.toNat
  | .pixel x y => (s.pixel x y).toNat
  | .drawFlag => s.drawFlag.toNat
  | .key k => (s.pressed k).toNat
  | .byte a => (s.byteAt a).toNat
  | .draws => s.draws

/-- THE FRAME: every place outside p holds in t what it held in s. -/
def ChangesOnly (p : Place → Prop) (s t : State) : Prop := ∀ q : Place, ¬ p q → q.get t = q.get s

/-- The invariant: memory is in its canonical form and sp lies in 0..15 (spec/10_state.md R28). -/
def Invariant (s : State) : Prop := s.mem.wf ∧ 0 ≤ s.sp.toInt ∧ s.sp.toInt < 16

/-- The states of a run: constructed with some ROM, then cycles and host actions in any order (spec/70 R292). -/
inductive Reachable : State → Prop where
  | load {rom : Option (List Byte)} {s : State} : loadRom rom = .next s → Reachable s
  | cycle {s t : State} : Reachable s → step s = .next t → Reachable t
  | host {s : State} (a : HostAction) : Reachable s → Reachable (hostAct s a)

/-- An outcome with its next state mapped; a stop stays as it is. -/
def onNext (f : State → State) : Result → Result
  | .next t => .next (f t)
  | .fault e => .fault e
  | .refused r => .refused r

/-- Where each instruction stops, and with which error (spec/60_exceptions.md R250): none where it completes. -/
def stopOf (s : State) : Instr → Option Fault
  | .ret => if 1 ≤ s.sp.toInt ∧ s.sp.toInt ≤ 15 then none else some (.invalidStackPointer s.sp)
  | .call _ => if 0 ≤ s.sp.toInt ∧ s.sp.toInt ≤ 14 then none else some (.invalidStackPointer s.sp)
  | .skp x | .sknp x => if (s.v x).toNat ≤ 0xF then none else some (.invalidKey (s.v x))
  | .ldF x => if (s.v x).toNat ≤ 0xF then none else some (.invalidDigit (s.v x))
  | .drw _ _ n => if n.toNat = 0 ∨ s.I.toNat + n.toNat - 1 ≤ 0xFFF then none else some (.addressOutOfRange s.I)
  | .ldB _ => if s.I.toNat + 2 ≤ 0xFFF then none else some (.addressOutOfRange s.I)
  | .stRegs x | .ldRegs x => if s.I.toNat + x.toNat ≤ 0xFFF then none else some (.addressOutOfRange s.I)
  | .cls | .jp _ | .jpV0 _ | .ldI _ => none
  | .seByte _ _ | .sneByte _ _ | .ldByte _ _ | .addByte _ _ | .rnd _ _ => none
  | .seReg _ _ | .sneReg _ _ | .ldReg _ _ | .orReg _ _ | .andReg _ _ | .xorReg _ _ => none
  | .addReg _ _ | .subReg _ _ | .subnReg _ _ => none
  | .shr _ | .shl _ | .ldVxDt _ | .ldVxK _ | .ldDtVx _ | .ldStVx _ | .addI _ => none

/-- The instructions that may write VF (spec/10_state.md R22): the flag writers, and the others where VF is a destination. -/
def mayWriteVF : Instr → Prop
  | .addReg _ _ | .subReg _ _ | .shr _ | .subnReg _ _ | .shl _ | .drw _ _ _ => True
  | .ldByte x _ | .addByte x _ | .ldReg x _ | .orReg x _ | .andReg x _ | .xorReg x _ | .rnd x _ => x = 0xF
  | .ldVxDt x | .ldVxK x | .ldRegs x => x = 0xF
  | .cls | .ret | .jp _ | .call _ | .ldI _ | .jpV0 _ => False
  | .seByte _ _ | .sneByte _ _ | .seReg _ _ | .sneReg _ _ | .skp _ | .sknp _ => False
  | .ldDtVx _ | .ldStVx _ | .addI _ | .ldF _ | .ldB _ | .stRegs _ => False

end Sys2Proof.Machine
end

