-- ==== Sys2Proof/Certificates/Slice0/Obligations.lean ====
section
/-! DEFINITION. The statements for the provers. A frame is said once: ChangesOnly p s t, every place outside p (every register,
timer, stack entry, pixel, key, flag and byte of memory) holds in t what it held in s. A sum or difference of 16-bit words is
modulo 2^16. -/

open Sys2Proof Sys2Proof.Machine

/-! ## Encoding and decoding -/

/-- spec/30_encoding.md section 2: ten words written out bit by bit from their rows (of families 0, 2, 3, 5, 7, 8, B, D, E and F)
decode to the instructions they stand for. Two words of no row, 0x0123 of family 0 and 0xF075 of family F, do not decode; that
such words are errors is the spec's own decision D7 (log entry 19). -/
def Obligations.WrittenWordsDecode : Prop :=
  decode 0b0000000011101110 = .ok .ret ∧ decode 0b0010001000010000 = .ok (.call 0x210) ∧
  decode 0b0011111100000001 = .ok (.seByte 0xF 0x01) ∧ decode 0b0101000100100000 = .ok (.seReg 0x1 0x2) ∧
  decode 0b0111000011111111 = .ok (.addByte 0x0 0xFF) ∧ decode 0b1000101010110110 = .ok (.shr 0xA) ∧
  decode 0b1101000100100101 = .ok (.drw 0x1 0x2 0x5) ∧ decode 0b1110010110100001 = .ok (.sknp 0x5) ∧
  decode 0b1111000101010101 = .ok (.stRegs 0x1) ∧ decode 0b1011001000000110 = .ok (.jpV0 0x206) ∧
  decode 0x0123 = .error (.opcodeError 0x0123) ∧ decode 0xF075 = .error (.opcodeError 0xF075)

/-- spec/30_encoding.md R70 to R73: no bit of an encoding is dropped. Every instruction, with every operand, is decoded back
from its word, and from its two bytes in address order with whatever follows left over. -/
def Obligations.DecodeOfEncode : Prop :=
  ∀ (i : Instr) (rest : List Byte),
    i.wellFormed = true ∧ decode (encode i) = .ok i ∧ decodeBytes (bytesOfWord (encode i) ++ rest) = .ok (i, rest)

/-- spec/30_encoding.md R75: the decoder is the opcode map. A word decodes to an instruction of a row's name exactly when
(word AND mask) = match for that row. -/
def Obligations.DecoderIsTheOpcodeMap : Prop :=
  ∀ (w : Word) (row : OpcodeRow), row ∈ opcodeMap →
    ((w &&& row.mask) = row.pattern ↔ ∃ i, decode w = .ok i ∧ i.mnemonic = row.mnemonic)

/-- spec/30_encoding.md R76: the Y field of 8XY6 and 8XYE is ignored, and no other field of any instruction is: two words that
decode to one instruction are the same word but for that field. -/
def Obligations.OnlyTheShiftsIgnoreAField : Prop :=
  (∀ x y : Nibble, decode (wordXY 0x8 x y 0x6) = .ok (.shr x) ∧ decode (wordXY 0x8 x y 0xE) = .ok (.shl x)) ∧
  ∀ (w w' : Word) (i : Instr), decode w = .ok i → decode w' = .ok i →
    w = w' ∨ (((∃ x, i = .shr x) ∨ ∃ x, i = .shl x) ∧
      fieldOp w = fieldOp w' ∧ fieldX w = fieldX w' ∧ fieldN w = fieldN w')

/-- spec/30_encoding.md R77 (an inference the spec marks as its own): no word matches two rows of the opcode map. -/
def Obligations.OpcodeRowsDoNotOverlap : Prop :=
  ∀ w : Word, (opcodeMap.filter (fun row => (w &&& row.mask) == row.pattern)).length ≤ 1

/-- spec/30_encoding.md section 3 (R78, which rests on the spec's own decision D7): the illegal words are exactly those of
these six classes, and the decoder names the word it rejects. -/
def Obligations.IllegalWordsAreExactlyThese : Prop :=
  ∀ w : Word, decode w = .error (.opcodeError w) ↔
    (fieldOp w = 0x0 ∧ w ≠ 0x00E0 ∧ w ≠ 0x00EE) ∨
    (fieldOp w = 0x5 ∧ fieldN w ≠ 0x0) ∨
    (fieldOp w = 0x8 ∧ fieldN w ∈ [0x8, 0x9, 0xA, 0xB, 0xC, 0xD, 0xF]) ∨
    (fieldOp w = 0x9 ∧ fieldN w ≠ 0x0) ∨
    (fieldOp w = 0xE ∧ fieldKK w ∉ [0x9E, 0xA1]) ∨
    (fieldOp w = 0xF ∧ fieldKK w ∉ [0x07, 0x0A, 0x15, 0x18, 0x1E, 0x29, 0x33, 0x55, 0x65])

/-! ## The cycle -/

/-- spec/40_fetch_decode_cycle.md R100, R102, R107: when the two bytes at pc, high byte first, decode to a well-formed
instruction, one step is that instruction's execution in the same state, and nothing is added around it. -/
def Obligations.StepRunsTheDecodedInstruction : Prop :=
  ∀ (s : State) (i : Instr), s.pc.toNat + 1 ≤ 0xFFF → i.wellFormed = true →
    decodeBytes [s.byteAt s.pc.toNat, s.byteAt (s.pc.toNat + 1)] = .ok (i, []) → step s = exec i s

/-- spec/40_fetch_decode_cycle.md R101, R103 and spec/60_exceptions.md R254 (the spec's own decisions D7, D9, D10, D28): a
fetch that leaves memory stops with the address; else a word that decodes to nothing stops with the word; an odd pc and a pc
below 0x200 are no reason to stop. -/
def Obligations.FetchAndDecodeErrors : Prop :=
  ∀ s : State,
    (0xFFF < s.pc.toNat + 1 → step s = .fault (.addressOutOfRange s.pc)) ∧
    ∀ w : Word, s.pc.toNat + 1 ≤ 0xFFF →
      w.toNat = (s.byteAt s.pc.toNat).toNat * 256 + (s.byteAt (s.pc.toNat + 1)).toNat →
      decode w = .error (.opcodeError w) → step s = .fault (.opcodeError w)

/-- spec/60_exceptions.md R250 (with the spec's own decisions D4, D5, D9, D16, D17): an instruction answers an error exactly
where stopOf says and with that error, and completes everywhere else. -/
def Obligations.ErrorsExactlyWhereListed : Prop :=
  ∀ (i : Instr) (s : State),
    (∀ f, exec i s = .fault f ↔ stopOf s i = some f) ∧ ((∃ t, exec i s = .next t) ↔ stopOf s i = none)

/-- spec/60_exceptions.md R250, R257, R258 (the spec's own decision D26): every cycle returns exactly one status, and never
InvalidState, InvalidRegister or a construction's status. -/
def Obligations.EveryCycleReturnsAStatus : Prop :=
  ∀ s : State, ∃ (st : Status) (t : State), cycle s = some (st, t) ∧
    st ∉ [Status.invalidState, Status.invalidRegister, Status.romTooBig, Status.romReadError]

/-- spec/60_exceptions.md R251, R252 (for pc the spec's own decision D8): a cycle that returns any status but Success leaves
the whole state as it was. -/
def Obligations.NoSuccessNoChange : Prop :=
  ∀ (s t : State) (st : Status), cycle s = some (st, t) → st ≠ .success → t = s

/-! ## Control transfer -/

/-- spec/41_control_transfer.md, JP addr (R122). The jump is taken to any address, and a jump to its own address changes nothing.
That only 0xFFF makes the next fetch stop, and that an odd address and one below 0x200 are fetched, are the spec's own decisions
D9 and D10 (R101, log entry 13). -/
def Obligations.JumpGoesToItsAddress : Prop :=
  ∀ (nnn : Addr) (s : State), decode (0x1#4 ++ nnn) = .ok (.jp nnn) ∧
    ∃ t, exec (.jp nnn) s = .next t ∧ t.pc.toNat = nnn.toNat ∧ ChangesOnly (· ∈ [.pc]) s t ∧
      (fetch t = .error (.addressOutOfRange 0xFFF) ↔ nnn = 0xFFF) ∧ (nnn ≠ 0xFFF → ∃ w, fetch t = .ok w) ∧
      (s.pc.toNat = nnn.toNat → t = s)

/-- spec/41_control_transfer.md section for JP V0, addr (R125, with the spec's own decision D14: no 12-bit mask). -/
def Obligations.OffsetJumpAddsV0 : Prop :=
  ∀ (nnn : Addr) (s : State), decode (0xB#4 ++ nnn) = .ok (.jpV0 nnn) ∧
    ∃ t, exec (.jpV0 nnn) s = .next t ∧ t.pc.toNat = (s.v 0).toNat + nnn.toNat ∧ ChangesOnly (· ∈ [.pc]) s t

/-- spec/41_control_transfer.md R123, R124 (with the spec's own decision D4: entry 15 is the last): with sp = k in 0..14, CALL
puts its own address into stack[k + 1], which sp then selects, and jumps. -/
def Obligations.CallPushesItsOwnAddress : Prop :=
  ∀ (nnn : Addr) (s : State) (k : Nibble), k ≠ 15 → s.sp = k.setWidth 8 → decode (0x2#4 ++ nnn) = .ok (.call nnn) ∧
    ∃ t, exec (.call nnn) s = .next t ∧ t.sp.toInt = s.sp.toInt + 1 ∧ t.stackEntry (k + 1) = s.pc ∧
      t.pc.toNat = nnn.toNat ∧ ChangesOnly (· ∈ [.pc, .sp, .stack (k + 1)]) s t

/-- spec/41_control_transfer.md R121 (with the spec's own decisions D3, D5): with sp = k in 1..15, RET resumes two past the
address in stack[k], lowers sp by one and clears nothing. -/
def Obligations.ReturnPopsAndAdvances : Prop :=
  ∀ (s : State) (k : Nibble), k ≠ 0 → s.sp = k.setWidth 8 → decode 0x00EE = .ok .ret ∧
    ∃ t, exec .ret s = .next t ∧ t.sp.toInt = s.sp.toInt - 1 ∧ t.pc = s.stackEntry k + 2 ∧
      ChangesOnly (· ∈ [.pc, .sp]) s t

/-- spec/41_control_transfer.md R120, R121, R123 (the check of the source, and the spec's own decisions D4, D5 for its edges):
outside 0..15 both stop; RET stops on the empty stack, CALL on the full one. -/
def Obligations.StackPointerErrors : Prop :=
  ∀ (nnn : Addr) (s : State),
    (s.sp.toInt < 0 ∨ 16 ≤ s.sp.toInt → exec .ret s = .fault (.invalidStackPointer s.sp) ∧
      exec (.call nnn) s = .fault (.invalidStackPointer s.sp)) ∧
    (s.sp = 0 → exec .ret s = .fault (.invalidStackPointer s.sp)) ∧
    (s.sp = 15 → exec (.call nnn) s = .fault (.invalidStackPointer s.sp))

/-- spec/90_conflicts.md C2 (with the spec's own decision D3): a RET executed anywhere with the state a CALL left resumes at
the instruction after the CALL, with the stack pointer from before it. -/
def Obligations.ReturnResumesAfterTheCall : Prop :=
  ∀ (nnn : Addr) (s : State) (pc : Word), 0 ≤ s.sp.toInt → s.sp.toInt < 15 →
    ∃ t u, exec (.call nnn) s = .next t ∧ exec .ret (t.setPc pc) = .next u ∧ u.pc = s.pc + 2 ∧ u.sp = s.sp

/-- spec/70_reset_and_hazards.md R296 (an inference the spec marks as its own): a jump to its own address changes nothing. -/
def Obligations.SelfJumpIsAFixedPoint : Prop :=
  ∀ (s : State) (nnn : Addr), s.pc = nnn.setWidth 16 → fetch s = .ok (0x1#4 ++ nnn) → step s = .next s

/-! ## Conditional skips -/

/-- spec/42_skips.md R141, R142: SE Vx, byte and SNE Vx, byte. -/
def Obligations.SkipsOnByte : Prop :=
  ∀ (x : Nibble) (kk : Byte) (s : State),
    decode (0x3#4 ++ x ++ kk) = .ok (.seByte x kk) ∧ decode (0x4#4 ++ x ++ kk) = .ok (.sneByte x kk) ∧
    (∃ t, exec (.seByte x kk) s = .next t ∧ t.pc = s.pc + (if (s.v x).toNat = kk.toNat then 4 else 2) ∧
      ChangesOnly (· ∈ [.pc]) s t) ∧
    ∃ t, exec (.sneByte x kk) s = .next t ∧ t.pc = s.pc + (if (s.v x).toNat = kk.toNat then 2 else 4) ∧
      ChangesOnly (· ∈ [.pc]) s t

/-- spec/42_skips.md, SE Vx, Vy and SNE Vx, Vy (R143, R144; that N other than 0 is illegal is the spec's own decision D7). -/
def Obligations.SkipsOnRegisters : Prop :=
  ∀ (x y : Nibble) (s : State),
    decode (0x5#4 ++ x ++ y ++ 0x0#4) = .ok (.seReg x y) ∧ decode (0x9#4 ++ x ++ y ++ 0x0#4) = .ok (.sneReg x y) ∧
    (∀ n : Nibble, n ≠ 0 → decode (0x5#4 ++ x ++ y ++ n) = .error (.opcodeError (0x5#4 ++ x ++ y ++ n)) ∧
      decode (0x9#4 ++ x ++ y ++ n) = .error (.opcodeError (0x9#4 ++ x ++ y ++ n))) ∧
    (∃ t, exec (.seReg x y) s = .next t ∧ t.pc = s.pc + (if (s.v x).toNat = (s.v y).toNat then 4 else 2) ∧
      ChangesOnly (· ∈ [.pc]) s t) ∧
    ∃ t, exec (.sneReg x y) s = .next t ∧ t.pc = s.pc + (if (s.v x).toNat = (s.v y).toNat then 2 else 4) ∧
      ChangesOnly (· ∈ [.pc]) s t

/-- spec/42_skips.md, SKP Vx and SKNP Vx (R145, R146, with the spec's own decision D17): when Vx is a key k in 0..15. -/
def Obligations.SkipsOnKeys : Prop :=
  ∀ (x k : Nibble) (s : State), s.v x = k.setWidth 8 →
    decode (0xE#4 ++ x ++ 0x9E#8) = .ok (.skp x) ∧ decode (0xE#4 ++ x ++ 0xA1#8) = .ok (.sknp x) ∧
    (∃ t, exec (.skp x) s = .next t ∧ t.pc = s.pc + (if s.pressed k then 4 else 2) ∧ ChangesOnly (· ∈ [.pc]) s t) ∧
    ∃ t, exec (.sknp x) s = .next t ∧ t.pc = s.pc + (if s.pressed k then 2 else 4) ∧ ChangesOnly (· ∈ [.pc]) s t

/-- spec/42_skips.md R147 and spec/44_index_memory.md R193 (the spec's own decisions D16, D17): a value above 0xF names no key
and no digit. -/
def Obligations.ValueAboveFErrors : Prop :=
  ∀ (x : Nibble) (s : State), 0xF < (s.v x).toNat →
    exec (.skp x) s = .fault (.invalidKey (s.v x)) ∧ exec (.sknp x) s = .fault (.invalidKey (s.v x)) ∧
    exec (.ldF x) s = .fault (.invalidDigit (s.v x))

/-! ## Register loads and the ALU -/

/-- spec/43_register_alu.md R162: LD Vx, byte. -/
def Obligations.LoadByteSetsOneRegister : Prop :=
  ∀ (x : Nibble) (kk : Byte) (s : State), decode (0x6#4 ++ x ++ kk) = .ok (.ldByte x kk) ∧
    ∃ t, exec (.ldByte x kk) s = .next t ∧ t.v x = kk ∧ t.pc = s.pc + 2 ∧ ChangesOnly (· ∈ [.v x, .pc]) s t

/-- spec/43_register_alu.md R163: ADD Vx, byte; VF is left alone unless it is the destination. -/
def Obligations.AddByteWrapsWithoutFlag : Prop :=
  ∀ (x : Nibble) (kk : Byte) (s : State), decode (0x7#4 ++ x ++ kk) = .ok (.addByte x kk) ∧
    ∃ t, exec (.addByte x kk) s = .next t ∧ (t.v x).toNat = ((s.v x).toNat + kk.toNat) % 256 ∧ t.pc = s.pc + 2 ∧
      ChangesOnly (· ∈ [.v x, .pc]) s t

/-- spec/43_register_alu.md R164, R166, R167: LD, AND, XOR of two registers, bit by bit. -/
def Obligations.CopyAndXorOfRegisters : Prop :=
  ∀ (x y : Nibble) (s : State),
    decode (0x8#4 ++ x ++ y ++ 0x0#4) = .ok (.ldReg x y) ∧ decode (0x8#4 ++ x ++ y ++ 0x2#4) = .ok (.andReg x y) ∧
    decode (0x8#4 ++ x ++ y ++ 0x3#4) = .ok (.xorReg x y) ∧
    (∃ t, exec (.ldReg x y) s = .next t ∧ t.v x = s.v y ∧ t.pc = s.pc + 2 ∧ ChangesOnly (· ∈ [.v x, .pc]) s t) ∧
    (∃ t, exec (.andReg x y) s = .next t ∧
      (∀ j, (t.v x).getLsbD j = ((s.v x).getLsbD j && (s.v y).getLsbD j)) ∧ t.pc = s.pc + 2 ∧
      ChangesOnly (· ∈ [.v x, .pc]) s t) ∧
    ∃ t, exec (.xorReg x y) s = .next t ∧
      (∀ j, (t.v x).getLsbD j = ((s.v x).getLsbD j ^^ (s.v y).getLsbD j)) ∧ t.pc = s.pc + 2 ∧
      ChangesOnly (· ∈ [.v x, .pc]) s t

/-- spec/43_register_alu.md section 3, OR Vx, Vy (R165; that VF is not reset is an inference the spec marks as its own). -/
def Obligations.OrLeavesVFAlone : Prop :=
  ∀ (x y : Nibble) (s : State), decode (0x8#4 ++ x ++ y ++ 0x1#4) = .ok (.orReg x y) ∧
    ∃ t, exec (.orReg x y) s = .next t ∧ (∀ j, (t.v x).getLsbD j = ((s.v x).getLsbD j || (s.v y).getLsbD j)) ∧
      t.pc = s.pc + 2 ∧ ChangesOnly (· ∈ [.v x, .pc]) s t

/-- spec/43_register_alu.md section 3, ADD Vx, Vy (R168; that the flag remains when X = F is the spec's own decision D11). -/
def Obligations.AddSetsCarry : Prop :=
  ∀ (x y : Nibble) (s : State), decode (0x8#4 ++ x ++ y ++ 0x4#4) = .ok (.addReg x y) ∧
    ∃ t, exec (.addReg x y) s = .next t ∧
      (x ≠ 0xF → (t.v x).toNat = ((s.v x).toNat + (s.v y).toNat) % 256) ∧
      (t.v 0xF).toNat = (if 255 < (s.v x).toNat + (s.v y).toNat then 1 else 0) ∧ t.pc = s.pc + 2 ∧
      ChangesOnly (· ∈ [.v x, .v 0xF, .pc]) s t

/-- spec/43_register_alu.md section 3, SUB and SUBN (R169, R171; that the flag remains when X = F is the spec's own decision
D11). -/
def Obligations.SubtractionsSetNoBorrow : Prop :=
  ∀ (x y : Nibble) (s : State),
    decode (0x8#4 ++ x ++ y ++ 0x5#4) = .ok (.subReg x y) ∧ decode (0x8#4 ++ x ++ y ++ 0x7#4) = .ok (.subnReg x y) ∧
    (∃ t, exec (.subReg x y) s = .next t ∧
      (x ≠ 0xF → (t.v x).toNat = (256 + (s.v x).toNat - (s.v y).toNat) % 256) ∧
      (t.v 0xF).toNat = (if (s.v x).toNat ≥ (s.v y).toNat then 1 else 0) ∧ t.pc = s.pc + 2 ∧
      ChangesOnly (· ∈ [.v x, .v 0xF, .pc]) s t) ∧
    ∃ t, exec (.subnReg x y) s = .next t ∧
      (x ≠ 0xF → (t.v x).toNat = (256 + (s.v y).toNat - (s.v x).toNat) % 256) ∧
      (t.v 0xF).toNat = (if (s.v y).toNat ≥ (s.v x).toNat then 1 else 0) ∧ t.pc = s.pc + 2 ∧
      ChangesOnly (· ∈ [.v x, .v 0xF, .pc]) s t

/-- spec/43_register_alu.md section 3, SHR and SHL (R170, R172; that the flag remains when X = F is the spec's own decision
D11): whatever the Y field holds, Vx is halved or doubled and VF is the bit shifted out. -/
def Obligations.ShiftsSetTheBitShiftedOut : Prop :=
  ∀ (x y : Nibble) (s : State),
    decode (0x8#4 ++ x ++ y ++ 0x6#4) = .ok (.shr x) ∧ decode (0x8#4 ++ x ++ y ++ 0xE#4) = .ok (.shl x) ∧
    (∃ t, exec (.shr x) s = .next t ∧ (x ≠ 0xF → (t.v x).toNat = (s.v x).toNat / 2) ∧
      (t.v 0xF).toNat = (s.v x).toNat % 2 ∧ t.pc = s.pc + 2 ∧ ChangesOnly (· ∈ [.v x, .v 0xF, .pc]) s t) ∧
    ∃ t, exec (.shl x) s = .next t ∧ (x ≠ 0xF → (t.v x).toNat = (s.v x).toNat * 2 % 256) ∧
      (t.v 0xF).toNat = (s.v x).toNat / 128 ∧ t.pc = s.pc + 2 ∧ ChangesOnly (· ∈ [.v x, .v 0xF, .pc]) s t

/-- spec/43_register_alu.md section 4, RND Vx, byte (R178). The random byte is the model's free value (log entry 1): this holds
for every value of it and of the model's own counter, which the instruction advances by one. -/
def Obligations.RandomIsMasked : Prop :=
  ∀ (x : Nibble) (kk : Byte) (s : State), decode (0xC#4 ++ x ++ kk) = .ok (.rnd x kk) ∧
    ∃ t, exec (.rnd x kk) s = .next t ∧
      (∀ j, (t.v x).getLsbD j = ((Config.randomByte s.draws).getLsbD j && kk.getLsbD j)) ∧
      t.draws = s.draws + 1 ∧ t.pc = s.pc + 2 ∧ ChangesOnly (· ∈ [.v x, .pc, .draws]) s t

/-! ## Index register and memory -/

/-- spec/44_index_memory.md R191: LD I, addr. -/
def Obligations.LoadIndexSetsI : Prop :=
  ∀ (nnn : Addr) (s : State), decode (0xA#4 ++ nnn) = .ok (.ldI nnn) ∧
    ∃ t, exec (.ldI nnn) s = .next t ∧ t.I.toNat = nnn.toNat ∧ t.pc = s.pc + 2 ∧ ChangesOnly (· ∈ [.index, .pc]) s t

/-- spec/44_index_memory.md, ADD I, Vx (R192, with the spec's own decision D13): modulo 2^16, no flag. -/
def Obligations.AddIndexWrapsWithoutFlag : Prop :=
  ∀ (x : Nibble) (s : State), decode (0xF#4 ++ x ++ 0x1E#8) = .ok (.addI x) ∧
    ∃ t, exec (.addI x) s = .next t ∧ t.I.toNat = (s.I.toNat + (s.v x).toNat) % 65536 ∧ t.pc = s.pc + 2 ∧
      ChangesOnly (· ∈ [.index, .pc]) s t

/-- spec/44_index_memory.md, LD F, Vx (R193, with the spec's own decisions D15, D16 and the model's FONT_BASE, log entry 2):
when Vx is a digit d in 0..15, I becomes FONT_BASE + 5 * d. -/
def Obligations.LoadFontPointsAtTheGlyph : Prop :=
  ∀ (x d : Nibble) (s : State), s.v x = d.setWidth 8 → decode (0xF#4 ++ x ++ 0x29#8) = .ok (.ldF x) ∧
    ∃ t, exec (.ldF x) s = .next t ∧ t.I.toNat = fontBase + 5 * d.toNat ∧ t.pc = s.pc + 2 ∧
      ChangesOnly (· ∈ [.index, .pc]) s t

/-- spec/44_index_memory.md, LD B, Vx (R194, with the spec's own decisions D9, D12): the three bytes at I are decimal digits
whose number is Vx. -/
def Obligations.BcdStoresThreeDigits : Prop :=
  ∀ (x : Nibble) (s : State), s.I.toNat + 2 ≤ 0xFFF → decode (0xF#4 ++ x ++ 0x33#8) = .ok (.ldB x) ∧
    ∃ t, exec (.ldB x) s = .next t ∧
      100 * (t.byteAt s.I.toNat).toNat + 10 * (t.byteAt (s.I.toNat + 1)).toNat + (t.byteAt (s.I.toNat + 2)).toNat
        = (s.v x).toNat ∧
      (t.byteAt (s.I.toNat + 1)).toNat ≤ 9 ∧ (t.byteAt (s.I.toNat + 2)).toNat ≤ 9 ∧ t.pc = s.pc + 2 ∧
      ChangesOnly (fun q => q = .pc ∨ ∃ a, q = .byte a ∧ s.I.toNat ≤ a ∧ a < s.I.toNat + 3) s t

/-- spec/44_index_memory.md, LD [I], Vx (R195, with the spec's own decisions D9, D12): V0..Vx go to the x + 1 bytes at I. -/
def Obligations.StoreRegistersToMemory : Prop :=
  ∀ (x : Nibble) (s : State), s.I.toNat + x.toNat ≤ 0xFFF → decode (0xF#4 ++ x ++ 0x55#8) = .ok (.stRegs x) ∧
    ∃ t, exec (.stRegs x) s = .next t ∧ (∀ k : Nibble, k.toNat ≤ x.toNat → t.byteAt (s.I.toNat + k.toNat) = s.v k) ∧
      t.pc = s.pc + 2 ∧
      ChangesOnly (fun q => q = .pc ∨ ∃ a, q = .byte a ∧ s.I.toNat ≤ a ∧ a ≤ s.I.toNat + x.toNat) s t

/-- spec/44_index_memory.md, LD Vx, [I] (R196, with the spec's own decisions D9, D12): V0..Vx come from the x + 1 bytes at I. -/
def Obligations.LoadRegistersFromMemory : Prop :=
  ∀ (x : Nibble) (s : State), s.I.toNat + x.toNat ≤ 0xFFF → decode (0xF#4 ++ x ++ 0x65#8) = .ok (.ldRegs x) ∧
    ∃ t, exec (.ldRegs x) s = .next t ∧ (∀ k : Nibble, k.toNat ≤ x.toNat → t.v k = s.byteAt (s.I.toNat + k.toNat)) ∧
      t.pc = s.pc + 2 ∧ ChangesOnly (fun q => q = .pc ∨ ∃ k : Nibble, q = .v k ∧ k.toNat ≤ x.toNat) s t

/-- spec/20_memory.md R54, R55 (the spec's own decision D9): an access with a byte past 0xFFF stops before it starts. -/
def Obligations.AccessPastMemoryErrors : Prop :=
  ∀ (x y n : Nibble) (s : State),
    (0xFFF < s.I.toNat + 2 → exec (.ldB x) s = .fault (.addressOutOfRange s.I)) ∧
    (0xFFF < s.I.toNat + x.toNat → exec (.stRegs x) s = .fault (.addressOutOfRange s.I) ∧
      exec (.ldRegs x) s = .fault (.addressOutOfRange s.I)) ∧
    (n ≠ 0 → 0xFFF < s.I.toNat + n.toNat - 1 → exec (.drw x y n) s = .fault (.addressOutOfRange s.I))

/-- spec/44_index_memory.md R195, R196 (with D12): what LD [I], Vx stored, LD Vx, [I] loads back into whatever registers. -/
def Obligations.StoredRegistersLoadBack : Prop :=
  ∀ (x : Nibble) (s : State) (regs : Vector Byte 16), s.I.toNat + x.toNat ≤ 0xFFF →
    ∃ t u, exec (.stRegs x) s = .next t ∧ exec (.ldRegs x) (t.setRegs regs) = .next u ∧
      ∀ k : Nibble, u.v k = if k.toNat ≤ x.toNat then s.v k else regs[k.toNat]'k.isLt

/-- spec/20_memory.md R62 (the spec's own decision D24): a fetch right after a store sees the stored bytes, high byte first. -/
def Obligations.FetchSeesTheStore : Prop :=
  ∀ (x k : Nibble) (s : State) (pc : Word), s.I.toNat + x.toNat ≤ 0xFFF → k.toNat + 1 ≤ x.toNat →
    pc.toNat = s.I.toNat + k.toNat →
    ∃ t, exec (.stRegs x) s = .next t ∧ fetch (t.setPc pc) = .ok (s.v k ++ s.v (k + 1))

/-- The model's memory (log entry 8): two canonical memories that read alike everywhere are the same data. -/
def Obligations.CanonicalMemoryIsUnique : Prop :=
  ∀ m m' : Memory, m.wf → m'.wf → (∀ a, m.read a = m'.read a) → m = m'

/-! ## Timers and keys -/

/-- spec/45_timers_keys.md R210, R213, R214: LD Vx, DT; LD DT, Vx; LD ST, Vx. -/
def Obligations.TimerAccesses : Prop :=
  ∀ (x : Nibble) (s : State),
    decode (0xF#4 ++ x ++ 0x07#8) = .ok (.ldVxDt x) ∧ decode (0xF#4 ++ x ++ 0x15#8) = .ok (.ldDtVx x) ∧
    decode (0xF#4 ++ x ++ 0x18#8) = .ok (.ldStVx x) ∧
    (∃ t, exec (.ldVxDt x) s = .next t ∧ t.v x = s.dt ∧ t.pc = s.pc + 2 ∧ ChangesOnly (· ∈ [.v x, .pc]) s t) ∧
    (∃ t, exec (.ldDtVx x) s = .next t ∧ t.dt = s.v x ∧ t.pc = s.pc + 2 ∧ ChangesOnly (· ∈ [.dt, .pc]) s t) ∧
    ∃ t, exec (.ldStVx x) s = .next t ∧ t.st = s.v x ∧ t.pc = s.pc + 2 ∧ ChangesOnly (· ∈ [.st, .pc]) s t

/-- spec/45_timers_keys.md, LD Vx, K (R211, R212, with the spec's own decision D18): when k is pressed and no lower key is, Vx
becomes k. -/
def Obligations.KeyWaitTakesTheLowestKey : Prop :=
  ∀ (x k : Nibble) (s : State), s.pressed k = true → (∀ j : Nibble, j.toNat < k.toNat → s.pressed j = false) →
    decode (0xF#4 ++ x ++ 0x0A#8) = .ok (.ldVxK x) ∧
    ∃ t, exec (.ldVxK x) s = .next t ∧ (t.v x).toNat = k.toNat ∧ t.pc = s.pc + 2 ∧ ChangesOnly (· ∈ [.v x, .pc]) s t

/-- spec/45_timers_keys.md, LD Vx, K (R211, with the spec's own decision D18): with no key pressed the cycle returns Waiting and
nothing changes, pc included. -/
def Obligations.KeyWaitWaits : Prop :=
  ∀ (x : Nibble) (s : State), (∀ k, s.pressed k = false) →
    exec (.ldVxK x) s = .next s ∧ (fetch s = .ok (0xF#4 ++ x ++ 0x0A#8) → cycle s = some (.waiting, s))

/-- spec/60_exceptions.md R262 (with the spec's own decision D22): a host tick lowers each timer that is not 0 by one, leaves 0
at 0, and changes nothing else. -/
def Obligations.TickStopsAtZero : Prop :=
  ∀ s : State, (hostAct s .tick).dt.toNat = s.dt.toNat - 1 ∧ (hostAct s .tick).st.toNat = s.st.toNat - 1 ∧
    ChangesOnly (· ∈ [.dt, .st]) s (hostAct s .tick)

/-! ## Display -/

/-- spec/46_display.md R231: CLS. -/
def Obligations.ClearBlanksTheDisplay : Prop :=
  ∀ s : State, decode 0x00E0 = .ok .cls ∧
    ∃ t, exec .cls s = .next t ∧ (∀ x y, t.pixel x y = false) ∧ t.drawFlag = true ∧ t.pc = s.pc + 2 ∧
      ChangesOnly (fun q => q ∈ [.drawFlag, .pc] ∨ ∃ x y, q = .pixel x y) s t

/-- spec/46_display.md, DRW (R232 to R234, with the spec's own decisions D3, D9, D20): each of the 8 * N pixels, wrapped, is the
old pixel XOR its sprite bit, bit 7 first; every other pixel is unchanged; VF is 1 exactly when a set bit met a set pixel; the
draw flag is set, also when N = 0. -/
def Obligations.DrawXorsTheSprite : Prop :=
  ∀ (vx vy n : Nibble) (s : State), n = 0 ∨ s.I.toNat + n.toNat - 1 ≤ 0xFFF →
    decode (0xD#4 ++ vx ++ vy ++ n) = .ok (.drw vx vy n) ∧
    ∃ t, exec (.drw vx vy n) s = .next t ∧
      (∀ (r c : Nat) (x : Fin 64) (y : Fin 32), r < n.toNat → c < 8 → x.val = ((s.v vx).toNat + c) % 64 →
        y.val = ((s.v vy).toNat + r) % 32 →
        t.pixel x y = (s.pixel x y ^^ (s.byteAt (s.I.toNat + r)).getLsbD (7 - c))) ∧
      (∀ (x : Fin 64) (y : Fin 32), (∀ r c : Nat, r < n.toNat → c < 8 →
        ¬ (x.val = ((s.v vx).toNat + c) % 64 ∧ y.val = ((s.v vy).toNat + r) % 32)) → t.pixel x y = s.pixel x y) ∧
      (t.v 0xF = 1 ∨ t.v 0xF = 0) ∧
      (t.v 0xF = 1 ↔ ∃ (r c : Nat) (x : Fin 64) (y : Fin 32), r < n.toNat ∧ c < 8 ∧
        x.val = ((s.v vx).toNat + c) % 64 ∧ y.val = ((s.v vy).toNat + r) % 32 ∧
        (s.byteAt (s.I.toNat + r)).getLsbD (7 - c) = true ∧ s.pixel x y = true) ∧
      t.drawFlag = true ∧ t.pc = s.pc + 2 ∧
      ChangesOnly (fun q => q ∈ [.v 0xF, .drawFlag, .pc] ∨ ∃ x y, q = .pixel x y) s t

/-- spec/46_display.md R233 (program P6 of spec/95_test_vectors.md): drawing the same sprite twice, with VF no coordinate,
restores the display; from a blank display the second draw collides exactly when the sprite has a set bit. -/
def Obligations.DrawingTwiceRestores : Prop :=
  ∀ (vx vy n : Nibble) (s : State), vx ≠ 0xF → vy ≠ 0xF → n = 0 ∨ s.I.toNat + n.toNat - 1 ≤ 0xFFF →
    ∃ t u, exec (.drw vx vy n) s = .next t ∧ exec (.drw vx vy n) t = .next u ∧ (∀ x y, u.pixel x y = s.pixel x y) ∧
      ((∀ x y, s.pixel x y = false) → (u.v 0xF = 1 ↔ ∃ r, r < n.toNat ∧ s.byteAt (s.I.toNat + r) ≠ 0))

/-! ## The whole machine -/

/-- spec/10_state.md R27: a stack entry is written only by CALL, RET does not clear the entry it pops, and no instruction but
RET reads one: with any other stack contents it answers the same, but for the stack. -/
def Obligations.StackEntriesBelongToCallAndReturn : Prop :=
  (∀ (i : Instr) (s t : State) (k : Nibble), exec i s = .next t → t.stackEntry k ≠ s.stackEntry k → ∃ nnn, i = .call nnn) ∧
  ∀ (i : Instr) (s : State) (entries blank : Vector Word 16), i ≠ .ret →
    onNext (fun t => { t with stack := blank }) (exec i { s with stack := entries })
      = onNext (fun t => { t with stack := blank }) (exec i s)

/-- spec/10_state.md sections 3, 5, 6, 7 and spec/20_memory.md section 4 (R24, R28 to R33, R58, with the spec's own decisions
D6, D17, D21): which instructions may change I, sp, DT, ST, a pixel, a byte of memory; no instruction changes the keypad or
clears the draw flag. The last clause is about the model's own counter of random draws (log entry 1). -/
def Obligations.OnlyTheNamedInstructionsWrite : Prop :=
  ∀ (i : Instr) (s t : State), exec i s = .next t →
    (t.I ≠ s.I → (∃ nnn, i = .ldI nnn) ∨ (∃ x, i = .addI x) ∨ ∃ x, i = .ldF x) ∧
    (t.sp ≠ s.sp → i = .ret ∨ ∃ nnn, i = .call nnn) ∧
    (t.dt ≠ s.dt → ∃ x, i = .ldDtVx x) ∧
    (t.st ≠ s.st → ∃ x, i = .ldStVx x) ∧
    (∀ x y, t.pixel x y ≠ s.pixel x y → i = .cls ∨ ∃ vx vy n, i = .drw vx vy n) ∧
    (∀ a, t.byteAt a ≠ s.byteAt a → (∃ x, i = .ldB x) ∨ ∃ x, i = .stRegs x) ∧
    (∀ k, t.pressed k = s.pressed k) ∧
    (s.drawFlag = true → t.drawFlag = true) ∧
    (t.drawFlag ≠ s.drawFlag → i = .cls ∨ ∃ vx vy n, i = .drw vx vy n) ∧
    (t.draws ≠ s.draws → ∃ x kk, i = .rnd x kk)

/-- spec/10_state.md section 2 (R22, with the spec's own decision D11): no instruction but those R22 lists writes VF. -/
def Obligations.OnlyTheListedInstructionsWriteVF : Prop :=
  ∀ (i : Instr) (s t : State), exec i s = .next t → t.v 0xF ≠ s.v 0xF → mayWriteVF i

/-- spec/10_state.md sections 6 and 7 (R30, R32, R37; R32 with the spec's own decision D21): no instruction reads ST or the draw
flag. With another value there it answers the same, and either overwrites it or carries it along. -/
def Obligations.SoundTimerAndDrawFlagAreNotRead : Prop :=
  ∀ (i : Instr) (s : State) (b : Byte) (f : Bool),
    ((∃ x, i = .ldStVx x) → exec i (s.setSt b) = exec i s) ∧
    ((∀ x, i ≠ .ldStVx x) → exec i (s.setSt b) = onNext (·.setSt b) (exec i s)) ∧
    (i = .cls ∨ (∃ vx vy n, i = .drw vx vy n) → exec i (s.setDrawFlag f) = exec i s) ∧
    (i ≠ .cls → (∀ vx vy n, i ≠ .drw vx vy n) → exec i (s.setDrawFlag f) = onNext (·.setDrawFlag f) (exec i s))

/-- The invariant (spec/10_state.md R28, an inference the spec marks as its own, and the model's memory form, log entry 8) is
kept by every cycle from every state that meets it. -/
def Obligations.StepKeepsTheInvariant : Prop := ∀ s t : State, Invariant s → step s = .next t → Invariant t

/-- The invariant (spec/10_state.md R28, an inference the spec marks as its own, and the model's memory form, log entry 8) is
kept by every host action of spec/70_reset_and_hazards.md R292 (with the spec's own decision D23). That a host action is the
operation hostAct, outside step, is the model's choice (log entry 4). -/
def Obligations.HostKeepsTheInvariant : Prop := ∀ (s : State) (acts : List HostAction), Invariant s → Invariant (hostActs s acts)

/-- The invariant (spec/10_state.md R28, an inference the spec marks as its own, and the model's memory form, log entry 8) holds at
reset (R40). That State.reset is the machine with an empty ROM is the model's choice (log entry 3). -/
def Obligations.ResetMeetsTheInvariant : Prop := Invariant State.reset

/-- The invariant (spec/10_state.md R28, an inference the spec marks as its own, and the model's memory form, log entry 8) holds in
every state of every run: from any accepted ROM, cycles and host actions in any order (spec/70_reset_and_hazards.md R292, with the
spec's own decision D23). That loadRom stands for the load and hostAct for the host are the model's choices (log entries 3, 4). -/
def Obligations.EveryRunKeepsTheInvariant : Prop := ∀ s : State, Reachable s → Invariant s

/-! ## Reset and construction -/

/-- spec/10_state.md section 11 (R40; the font's place and bytes are the spec's defaults for its open parameters, D15, log
entry 2; the model's counter, log entry 1, is not stated): the reset value of every piece of state, with no ROM. -/
def Obligations.ResetValues : Prop :=
  let s := State.reset
  s.pc = 0x200 ∧ s.I = 0 ∧ s.sp = 0 ∧ s.dt = 0 ∧ s.st = 0 ∧ s.drawFlag = false ∧
  (∀ x, s.v x = 0) ∧ (∀ k, s.stackEntry k = 0) ∧ (∀ k, s.pressed k = false) ∧ (∀ x y, s.pixel x y = false) ∧
  fontImage.length = 80 ∧ fontBase + 79 ≤ 0x1FF ∧
  (∀ k, k < 80 → s.byteAt (fontBase + k) = fontImage.getD k 0) ∧
  ∀ a, a < fontBase ∨ fontBase + 80 ≤ a → s.byteAt a = 0

/-- spec/70_reset_and_hazards.md R281, R282, R283: a ROM of at most 3583 bytes is copied verbatim to 0x200 and the bytes after
it stay 0; a longer one and an unreadable one are rejected, and there is no machine. -/
def Obligations.RomIsCopiedVerbatim : Prop :=
  loadRom none = .fault .romReadError ∧
  ∀ rom : List Byte,
    (3583 < rom.length → loadRom (some rom) = .fault .romTooBig) ∧
    (rom.length ≤ 3583 → ∃ t, loadRom (some rom) = .next t ∧
      (∀ k, k < rom.length → t.byteAt (0x200 + k) = rom.getD k 0) ∧
      (∀ a, 0x200 + rom.length ≤ a → t.byteAt a = 0) ∧
      ChangesOnly (fun q => ∃ a, q = .byte a ∧ 0x200 ≤ a ∧ a < 0x200 + rom.length) State.reset t)

/-! ## Runs -/

/-- spec/70_reset_and_hazards.md R295 (the spec's own decision D33; how a run is kept is the model's, log entry 21): from every
state, every list of cycles and host actions leads to a run. It has reached its END exactly when pc addresses a self-jump, and the
core keeps that state; it is FAULTED only where the cycle returns that error and changes nothing; it is WAITING only at an FX0A
word. -/
def Obligations.RunStatusSaysWhereARunStands : Prop :=
  ∀ (s : State) (es : List RunEvent), ∃ r : Run, runEvents (runStart s) es = some r ∧
    (r.status = .ended ↔ ∃ nnn : Addr, r.state.pc = nnn.setWidth 16 ∧ fetch r.state = .ok (0x1#4 ++ nnn)) ∧
    (r.status = .ended → step r.state = .next r.state) ∧
    (∀ st, r.status = .faulted st → st ≠ .success ∧ st ≠ .waiting ∧ cycle r.state = some (st, r.state)) ∧
    (r.status = .waiting → ∃ x : Nibble, fetch r.state = .ok (0xF#4 ++ x ++ 0x0A#8))

/-- spec/70_reset_and_hazards.md R295, R296 (the spec's own decision D33; log entry 21): the first error ends a run, and the end
state is the state when pc first addresses a self-jump. A cycle with an error makes a run that is not over FAULTED, one that leads
to a self-jump makes it END, one that returns Waiting makes it WAITING, and after a run is over no event moves it. -/
def Obligations.RunEndsAtTheFirstErrorOrSelfJump : Prop :=
  ∀ (r : Run) (more : List RunEvent),
    (r.status.isOver = true → runEvents r more = some r) ∧
    ∀ (st : Status) (t : State), r.status.isOver = false → cycle r.state = some (st, t) →
      (st ≠ .success → st ≠ .waiting → runEvents r (.cycle :: more) = some ⟨.faulted st, r.state⟩) ∧
      (st = .success → atSelfJump t = true → runEvents r (.cycle :: more) = some ⟨.ended, t⟩) ∧
      (st = .success → atSelfJump t = false → runEvents r (.cycle :: more) = runEvents ⟨.running, t⟩ more) ∧
      (st = .waiting → runEvents r (.cycle :: more) = runEvents ⟨.waiting, r.state⟩ more)
end

