-- ==== Sys2Proof/Laws/Decode.lean ====
section
/-! SUPPORT. The numbers of the words and fields of spec/30_encoding.md R71, and what each field of a word laid out in a
format is. -/
namespace Sys2Proof

theorem append_toNat {m n : Nat} (a : BitVec m) (b : BitVec n) : (a ++ b).toNat = a.toNat * 2 ^ n + b.toNat := by
  rw [BitVec.toNat_append, ← Nat.shiftLeft_add_eq_or_of_lt b.isLt, Nat.shiftLeft_eq]

theorem wordA_toNat (op : Nibble) (nnn : Addr) : (wordA op nnn).toNat = op.toNat * 4096 + nnn.toNat :=
  append_toNat op nnn

theorem wordXK_toNat (op x : Nibble) (kk : Byte) :
    (wordXK op x kk).toNat = op.toNat * 4096 + x.toNat * 256 + kk.toNat := by
  rw [wordXK, append_toNat, append_toNat]; ring

theorem wordXY_toNat (op x y n : Nibble) :
    (wordXY op x y n).toNat = op.toNat * 4096 + x.toNat * 256 + y.toNat * 16 + n.toNat := by
  rw [wordXY, append_toNat, append_toNat, append_toNat]; ring

theorem wordOfBytes_toNat (hi lo : Byte) : (wordOfBytes hi lo).toNat = hi.toNat * 256 + lo.toNat := by
  have h := append_toNat hi lo
  simp only [wordOfBytes]; omega

theorem fieldOp_toNat (w : Word) : (fieldOp w).toNat = w.toNat / 4096 := by
  simp [fieldOp, BitVec.extractLsb'_toNat, Nat.shiftRight_eq_div_pow]; omega

theorem fieldX_toNat (w : Word) : (fieldX w).toNat = w.toNat / 256 % 16 := by
  simp [fieldX, BitVec.extractLsb'_toNat, Nat.shiftRight_eq_div_pow]

theorem fieldY_toNat (w : Word) : (fieldY w).toNat = w.toNat / 16 % 16 := by
  simp [fieldY, BitVec.extractLsb'_toNat, Nat.shiftRight_eq_div_pow]

theorem fieldN_toNat (w : Word) : (fieldN w).toNat = w.toNat % 16 := by
  simp [fieldN, BitVec.extractLsb'_toNat]

theorem fieldKK_toNat (w : Word) : (fieldKK w).toNat = w.toNat % 256 := by
  simp [fieldKK, BitVec.extractLsb'_toNat]

theorem fieldNNN_toNat (w : Word) : (fieldNNN w).toNat = w.toNat % 4096 := by
  simp [fieldNNN, BitVec.extractLsb'_toNat]

section formats
variable (op x y n : Nibble) (kk : Byte) (nnn : Addr)

@[simp] theorem fieldOp_wordA : fieldOp (wordA op nnn) = op := by
  rw [← BitVec.toNat_inj, fieldOp_toNat, wordA_toNat]; omega
@[simp] theorem fieldNNN_wordA : fieldNNN (wordA op nnn) = nnn := by
  rw [← BitVec.toNat_inj, fieldNNN_toNat, wordA_toNat]; omega
@[simp] theorem fieldOp_wordXK : fieldOp (wordXK op x kk) = op := by
  rw [← BitVec.toNat_inj, fieldOp_toNat, wordXK_toNat]; omega
@[simp] theorem fieldX_wordXK : fieldX (wordXK op x kk) = x := by
  rw [← BitVec.toNat_inj, fieldX_toNat, wordXK_toNat]; omega
@[simp] theorem fieldKK_wordXK : fieldKK (wordXK op x kk) = kk := by
  rw [← BitVec.toNat_inj, fieldKK_toNat, wordXK_toNat]; omega
@[simp] theorem fieldOp_wordXY : fieldOp (wordXY op x y n) = op := by
  rw [← BitVec.toNat_inj, fieldOp_toNat, wordXY_toNat]; omega
@[simp] theorem fieldX_wordXY : fieldX (wordXY op x y n) = x := by
  rw [← BitVec.toNat_inj, fieldX_toNat, wordXY_toNat]; omega
@[simp] theorem fieldY_wordXY : fieldY (wordXY op x y n) = y := by
  rw [← BitVec.toNat_inj, fieldY_toNat, wordXY_toNat]; omega
@[simp] theorem fieldN_wordXY : fieldN (wordXY op x y n) = n := by
  rw [← BitVec.toNat_inj, fieldN_toNat, wordXY_toNat]; omega

end formats

/-- Every word is its own fields, in each format. -/
theorem wordXY_fields (w : Word) : wordXY (fieldOp w) (fieldX w) (fieldY w) (fieldN w) = w := by
  rw [← BitVec.toNat_inj, wordXY_toNat, fieldOp_toNat, fieldX_toNat, fieldY_toNat, fieldN_toNat]; omega
theorem wordXK_fields (w : Word) : wordXK (fieldOp w) (fieldX w) (fieldKK w) = w := by
  rw [← BitVec.toNat_inj, wordXK_toNat, fieldOp_toNat, fieldX_toNat, fieldKK_toNat]; omega
theorem wordA_fields (w : Word) : wordA (fieldOp w) (fieldNNN w) = w := by
  rw [← BitVec.toNat_inj, wordA_toNat, fieldOp_toNat, fieldNNN_toNat]; omega

/-- A word's bytes make the word again. -/
@[simp] theorem wordOfBytes_bytesOfWord (w : Word) : wordOfBytes (w.extractLsb' 8 8) (w.extractLsb' 0 8) = w := by
  rw [← BitVec.toNat_inj, wordOfBytes_toNat]
  simp [BitVec.extractLsb'_toNat, Nat.shiftRight_eq_div_pow]; omega

/-- The decoder looks only at a word's two bytes and leaves the rest. -/
theorem decodeBytes_bytesOfWord (w : Word) (rest : List Byte) :
    decodeBytes (bytesOfWord w ++ rest) = (decode w).map (·, rest) := by
  simp [decodeBytes, bytesOfWord]

/-- What decodes was encoded: a word that decodes to i is i's word, but for the ignored Y field of the two shifts. -/
theorem decode_eq_ok {w : Word} {i : Instr} (h : decode w = .ok i) : encode i = w ∨
    (∃ x, i = .shr x ∧ w = wordXY 0x8 x (fieldY w) 0x6) ∨ ∃ x, i = .shl x ∧ w = wordXY 0x8 x (fieldY w) 0xE := by
  have hw := w.isLt
  unfold decode decodeFamily0 decodeFamily8 decodeFamilyE decodeFamilyF at h
  split at h
  all_goals (rename_i hop; try rw [fieldOp_toNat] at hop)
  all_goals try (split at h)
  all_goals try (split at h)
  all_goals first | (cases h; done) | skip
  all_goals cases h
  all_goals try (rename_i hn; simp only [← BitVec.toNat_inj, fieldKK_toNat, fieldN_toNat] at hn)
  all_goals first
    | (refine .inr (.inl ⟨_, rfl, ?_⟩); rw [← BitVec.toNat_inj]; simp [wordXY_toNat, fieldX_toNat, fieldY_toNat]; omega)
    | (refine .inr (.inr ⟨_, rfl, ?_⟩); rw [← BitVec.toNat_inj]; simp [wordXY_toNat, fieldX_toNat, fieldY_toNat]; omega)
    | (left; rw [← BitVec.toNat_inj]
       simp [encode, wordXY_toNat, wordXK_toNat, wordA_toNat, fieldX_toNat, fieldY_toNat, fieldKK_toNat,
         fieldNNN_toNat, fieldN_toNat] at *
       omega)

/-- No term of Instr is ill formed: an operand's type is its field's width. -/
theorem Laws.wellFormed_all (i : Instr) : i.wellFormed = true := by
  cases i <;> simp [Instr.wellFormed, regOk] <;> omega

end Sys2Proof
end

