-- ==== Sys2Proof/Laws/Memory.lean ====
section
/-! SUPPORT. What each memory operation does: reads after writes, and that writes keep the canonical form. -/
namespace Sys2Proof.Machine

theorem Memory.read_insert (m : Memory) (a : Nat) (b : Byte) (a' : Nat) (h : ∀ c ∈ m, c.1 ≠ a) :
    (Memory.insert a b m).read a' = if a' = a then b else m.read a' := by
  induction m with
  | nil => simp [Memory.insert, Memory.read, eq_comm]
  | cons c m ih =>
    have hc : c.1 ≠ a := h c (by simp)
    have ih := ih fun d hd => h d (by simp [hd])
    simp only [Memory.insert]
    split
    · simp [Memory.read, eq_comm]
    · simp only [Memory.read, ih]
      split <;> simp_all

theorem Memory.read_filter (m : Memory) (a a' : Nat) :
    Memory.read (m.filter (fun c => c.1 ≠ a)) a' = if a' = a then resetByte a else m.read a' := by
  induction m with
  | nil => by_cases h : a' = a <;> simp [Memory.read, h]
  | cons c m ih =>
    by_cases hc : c.1 = a
    · rw [List.filter_cons_of_neg (by simp [hc]), ih]
      by_cases h : a' = a
      · simp [h]
      · simp [Memory.read, h, hc, Ne.symm h]
    · rw [List.filter_cons_of_pos (by simp [hc])]
      simp only [Memory.read, ih]
      by_cases h : a' = a
      · subst h; simp [hc]
      · simp [h]

/-- A read after a write: the byte written at its address, every other address as before. It holds in every memory, canonical
or not. -/
@[simp] theorem Memory.read_write (m : Memory) (a : Nat) (b : Byte) (a' : Nat) :
    (m.write a b).read a' = if a' = a then b else m.read a' := by
  unfold Memory.write
  dsimp only
  split
  · rename_i h; rw [Memory.read_filter, h]
  · rw [Memory.read_insert _ _ _ _ (by simp), Memory.read_filter]
    by_cases h : a' = a <;> simp [h]

/-- A read after a store of bytes from a on: the k-th byte at a + k, every other address as before. -/
theorem Memory.read_store (m : Memory) (a : Nat) (bs : List Byte) (a' : Nat) :
    (m.store a bs).read a' = if a ≤ a' ∧ a' < a + bs.length then bs.getD (a' - a) 0 else m.read a' := by
  induction bs generalizing m a with
  | nil => simp [Memory.store]
  | cons b bs ih =>
    rw [Memory.store, ih]
    by_cases h1 : a' = a
    · subst h1; simp
    · by_cases h2 : a + 1 ≤ a' ∧ a' < a + 1 + bs.length
      · rw [if_pos h2, if_pos (by simp; omega)]
        obtain ⟨k, rfl⟩ : ∃ k, a' = a + 1 + k := ⟨a' - (a + 1), by omega⟩
        have : a + 1 + k - a = k + 1 := by omega
        rw [this, List.getD_cons_succ, show a + 1 + k - (a + 1) = k by omega]
      · rw [if_neg h2, if_neg (by simp; omega)]; simp [h1]

theorem Memory.read_store_of_lt (m : Memory) {a a' : Nat} (bs : List Byte) (h : a' < a) :
    (m.store a bs).read a' = m.read a' := by rw [Memory.read_store, if_neg (by omega)]

theorem Memory.read_store_at (m : Memory) (a k : Nat) (bs : List Byte) (h : k < bs.length) :
    (m.store a bs).read (a + k) = bs[k] := by
  rw [Memory.read_store, if_pos (by omega)]; simp [h]

theorem Memory.length_load (m : Memory) (a n : Nat) : (m.load a n).length = n := by simp [Memory.load]

theorem Memory.getD_load (m : Memory) (a n k : Nat) (h : k < n) : (m.load a n).getD k 0 = m.read (a + k) := by
  simp [Memory.load, h]

theorem Memory.mem_insert {a : Nat} {b : Byte} {m : Memory} {c : Host.Cell} (h : c ∈ Memory.insert a b m) :
    c = (a, b) ∨ c ∈ m := by
  induction m with
  | nil => simpa [Memory.insert] using h
  | cons d m ih =>
    simp only [Memory.insert] at h
    split at h
    · simpa using h
    · rcases List.mem_cons.1 h with rfl | h
      · simp
      · rcases ih h with h | h <;> simp [h]

theorem Memory.pairwise_insert (a : Nat) (b : Byte) (m : Memory) (hs : (m.map (·.1)).Pairwise (· < ·))
    (ha : ∀ c ∈ m, c.1 ≠ a) : ((Memory.insert a b m).map (·.1)).Pairwise (· < ·) := by
  induction m with
  | nil => simp [Memory.insert]
  | cons d m ih =>
    rw [List.map_cons, List.pairwise_cons] at hs
    have hd : d.1 ≠ a := ha d (by simp)
    simp only [Memory.insert]
    split
    · rename_i hlt
      simp only [List.map_cons, List.pairwise_cons]
      refine ⟨fun k hk => ?_, hs⟩
      rcases List.mem_cons.1 hk with rfl | hk
      · exact hlt
      · exact lt_trans hlt (hs.1 k hk)
    · rename_i hlt
      simp only [List.map_cons, List.pairwise_cons]
      refine ⟨fun k hk => ?_, ih hs.2 fun c hc => ha c (by simp [hc])⟩
      obtain ⟨c, hc, rfl⟩ := List.mem_map.1 hk
      rcases Memory.mem_insert hc with rfl | hc
      · simp at hd hlt ⊢; omega
      · exact hs.1 _ (List.mem_map_of_mem hc)

/-- A write inside memory keeps the canonical form. -/
theorem Memory.wf_write {m : Memory} (h : m.wf) {a : Nat} (ha : a < Config.memSize) (b : Byte) : (m.write a b).wf := by
  have hs : ((m.filter (fun c => c.1 ≠ a)).map (·.1)).Pairwise (· < ·) := h.1.sublist (List.filter_sublist.map _)
  have hm : ∀ c ∈ m.filter (fun c => c.1 ≠ a), c.1 < Config.memSize ∧ c.2 ≠ resetByte c.1 :=
    fun c hc => h.2 c (List.mem_filter.1 hc).1
  unfold Memory.write
  dsimp only
  split
  · exact ⟨hs, hm⟩
  · rename_i hb
    refine ⟨Memory.pairwise_insert a b _ hs (by simp), fun c hc => ?_⟩
    rcases Memory.mem_insert hc with rfl | hc
    · exact ⟨ha, hb⟩
    · exact hm c hc

/-- A store of bytes inside memory keeps the canonical form. -/
theorem Memory.wf_store {m : Memory} (h : m.wf) {a : Nat} (bs : List Byte) (ha : a + bs.length ≤ Config.memSize) :
    (m.store a bs).wf := by
  induction bs generalizing m a with
  | nil => exact h
  | cons b bs ih =>
    simp only [List.length_cons] at ha
    exact ih (Memory.wf_write h (by omega) b) (by omega)

/-- The empty list, reset's memory, is canonical. -/
theorem Memory.wf_nil : Memory.wf [] := by simp [Memory.wf]

/-- The font image has 80 bytes and lies in the reserved area (spec/70_reset_and_hazards.md R284). -/
theorem fontImage_length : fontImage.length = 80 := by decide
theorem font_in_reserved_area : fontBase + 79 ≤ 0x1FF := by decide

/-- What an address above the font holds at reset. -/
theorem resetByte_above_font {a : Nat} (h : fontBase + 80 ≤ a) : resetByte a = 0 := by
  have hl := fontImage_length
  rw [resetByte, if_pos (by omega), List.getD_eq_getElem?_getD, List.getElem?_eq_none (by omega)]; rfl

theorem inRange_iff (a n : Nat) : inRange a n = true ↔ a + n - 1 ≤ 0xFFF := by simp [inRange]

end Sys2Proof.Machine
end

