-- ==== Sys2Proof/Laws/State.lean ====
section
/-! SUPPORT. One lemma per field and per accessor for each update of the state: what an update writes reads back, and every
other field and accessor is as before. -/
namespace Sys2Proof.Machine

variable (s : State)

@[simp] theorem mem_setV (x : Nibble) (b : Byte) : (s.setV x b).mem = s.mem := rfl
@[simp] theorem V_setV (x : Nibble) (b : Byte) : (s.setV x b).V = s.V.set x.toNat b x.isLt := rfl
@[simp] theorem I_setV (x : Nibble) (b : Byte) : (s.setV x b).I = s.I := rfl
@[simp] theorem pc_setV (x : Nibble) (b : Byte) : (s.setV x b).pc = s.pc := rfl
@[simp] theorem stack_setV (x : Nibble) (b : Byte) : (s.setV x b).stack = s.stack := rfl
@[simp] theorem sp_setV (x : Nibble) (b : Byte) : (s.setV x b).sp = s.sp := rfl
@[simp] theorem dt_setV (x : Nibble) (b : Byte) : (s.setV x b).dt = s.dt := rfl
@[simp] theorem st_setV (x : Nibble) (b : Byte) : (s.setV x b).st = s.st := rfl
@[simp] theorem disp_setV (x : Nibble) (b : Byte) : (s.setV x b).disp = s.disp := rfl
@[simp] theorem drawFlag_setV (x : Nibble) (b : Byte) : (s.setV x b).drawFlag = s.drawFlag := rfl
@[simp] theorem key_setV (x : Nibble) (b : Byte) : (s.setV x b).key = s.key := rfl
@[simp] theorem draws_setV (x : Nibble) (b : Byte) : (s.setV x b).draws = s.draws := rfl
@[simp] theorem stackEntry_setV (x : Nibble) (b : Byte) (i : Nibble) : (s.setV x b).stackEntry i = s.stackEntry i := rfl
@[simp] theorem pressed_setV (x : Nibble) (b : Byte) (i : Nibble) : (s.setV x b).pressed i = s.pressed i := rfl
@[simp] theorem byteAt_setV (x : Nibble) (b : Byte) (a : Nat) : (s.setV x b).byteAt a = s.byteAt a := rfl
@[simp] theorem pixel_setV (x : Nibble) (b : Byte) (px : Fin 64) (py : Fin 32) : (s.setV x b).pixel px py = s.pixel px py := rfl

@[simp] theorem mem_setRegs (u : Vector Byte 16) : (s.setRegs u).mem = s.mem := rfl
@[simp] theorem V_setRegs (u : Vector Byte 16) : (s.setRegs u).V = u := rfl
@[simp] theorem I_setRegs (u : Vector Byte 16) : (s.setRegs u).I = s.I := rfl
@[simp] theorem pc_setRegs (u : Vector Byte 16) : (s.setRegs u).pc = s.pc := rfl
@[simp] theorem stack_setRegs (u : Vector Byte 16) : (s.setRegs u).stack = s.stack := rfl
@[simp] theorem sp_setRegs (u : Vector Byte 16) : (s.setRegs u).sp = s.sp := rfl
@[simp] theorem dt_setRegs (u : Vector Byte 16) : (s.setRegs u).dt = s.dt := rfl
@[simp] theorem st_setRegs (u : Vector Byte 16) : (s.setRegs u).st = s.st := rfl
@[simp] theorem disp_setRegs (u : Vector Byte 16) : (s.setRegs u).disp = s.disp := rfl
@[simp] theorem drawFlag_setRegs (u : Vector Byte 16) : (s.setRegs u).drawFlag = s.drawFlag := rfl
@[simp] theorem key_setRegs (u : Vector Byte 16) : (s.setRegs u).key = s.key := rfl
@[simp] theorem draws_setRegs (u : Vector Byte 16) : (s.setRegs u).draws = s.draws := rfl
@[simp] theorem stackEntry_setRegs (u : Vector Byte 16) (i : Nibble) : (s.setRegs u).stackEntry i = s.stackEntry i := rfl
@[simp] theorem pressed_setRegs (u : Vector Byte 16) (i : Nibble) : (s.setRegs u).pressed i = s.pressed i := rfl
@[simp] theorem byteAt_setRegs (u : Vector Byte 16) (a : Nat) : (s.setRegs u).byteAt a = s.byteAt a := rfl
@[simp] theorem pixel_setRegs (u : Vector Byte 16) (px : Fin 64) (py : Fin 32) : (s.setRegs u).pixel px py = s.pixel px py := rfl

@[simp] theorem mem_setI (w : Word) : (s.setI w).mem = s.mem := rfl
@[simp] theorem V_setI (w : Word) : (s.setI w).V = s.V := rfl
@[simp] theorem I_setI (w : Word) : (s.setI w).I = w := rfl
@[simp] theorem pc_setI (w : Word) : (s.setI w).pc = s.pc := rfl
@[simp] theorem stack_setI (w : Word) : (s.setI w).stack = s.stack := rfl
@[simp] theorem sp_setI (w : Word) : (s.setI w).sp = s.sp := rfl
@[simp] theorem dt_setI (w : Word) : (s.setI w).dt = s.dt := rfl
@[simp] theorem st_setI (w : Word) : (s.setI w).st = s.st := rfl
@[simp] theorem disp_setI (w : Word) : (s.setI w).disp = s.disp := rfl
@[simp] theorem drawFlag_setI (w : Word) : (s.setI w).drawFlag = s.drawFlag := rfl
@[simp] theorem key_setI (w : Word) : (s.setI w).key = s.key := rfl
@[simp] theorem draws_setI (w : Word) : (s.setI w).draws = s.draws := rfl
@[simp] theorem v_setI (w : Word) (i : Nibble) : (s.setI w).v i = s.v i := rfl
@[simp] theorem stackEntry_setI (w : Word) (i : Nibble) : (s.setI w).stackEntry i = s.stackEntry i := rfl
@[simp] theorem pressed_setI (w : Word) (i : Nibble) : (s.setI w).pressed i = s.pressed i := rfl
@[simp] theorem byteAt_setI (w : Word) (a : Nat) : (s.setI w).byteAt a = s.byteAt a := rfl
@[simp] theorem pixel_setI (w : Word) (px : Fin 64) (py : Fin 32) : (s.setI w).pixel px py = s.pixel px py := rfl

@[simp] theorem mem_setPc (w : Word) : (s.setPc w).mem = s.mem := rfl
@[simp] theorem V_setPc (w : Word) : (s.setPc w).V = s.V := rfl
@[simp] theorem I_setPc (w : Word) : (s.setPc w).I = s.I := rfl
@[simp] theorem pc_setPc (w : Word) : (s.setPc w).pc = w := rfl
@[simp] theorem stack_setPc (w : Word) : (s.setPc w).stack = s.stack := rfl
@[simp] theorem sp_setPc (w : Word) : (s.setPc w).sp = s.sp := rfl
@[simp] theorem dt_setPc (w : Word) : (s.setPc w).dt = s.dt := rfl
@[simp] theorem st_setPc (w : Word) : (s.setPc w).st = s.st := rfl
@[simp] theorem disp_setPc (w : Word) : (s.setPc w).disp = s.disp := rfl
@[simp] theorem drawFlag_setPc (w : Word) : (s.setPc w).drawFlag = s.drawFlag := rfl
@[simp] theorem key_setPc (w : Word) : (s.setPc w).key = s.key := rfl
@[simp] theorem draws_setPc (w : Word) : (s.setPc w).draws = s.draws := rfl
@[simp] theorem v_setPc (w : Word) (i : Nibble) : (s.setPc w).v i = s.v i := rfl
@[simp] theorem stackEntry_setPc (w : Word) (i : Nibble) : (s.setPc w).stackEntry i = s.stackEntry i := rfl
@[simp] theorem pressed_setPc (w : Word) (i : Nibble) : (s.setPc w).pressed i = s.pressed i := rfl
@[simp] theorem byteAt_setPc (w : Word) (a : Nat) : (s.setPc w).byteAt a = s.byteAt a := rfl
@[simp] theorem pixel_setPc (w : Word) (px : Fin 64) (py : Fin 32) : (s.setPc w).pixel px py = s.pixel px py := rfl

@[simp] theorem mem_setStackEntry (k : Nibble) (w : Word) : (s.setStackEntry k w).mem = s.mem := rfl
@[simp] theorem V_setStackEntry (k : Nibble) (w : Word) : (s.setStackEntry k w).V = s.V := rfl
@[simp] theorem I_setStackEntry (k : Nibble) (w : Word) : (s.setStackEntry k w).I = s.I := rfl
@[simp] theorem pc_setStackEntry (k : Nibble) (w : Word) : (s.setStackEntry k w).pc = s.pc := rfl
@[simp] theorem stack_setStackEntry (k : Nibble) (w : Word) : (s.setStackEntry k w).stack = s.stack.set k.toNat w k.isLt := rfl
@[simp] theorem sp_setStackEntry (k : Nibble) (w : Word) : (s.setStackEntry k w).sp = s.sp := rfl
@[simp] theorem dt_setStackEntry (k : Nibble) (w : Word) : (s.setStackEntry k w).dt = s.dt := rfl
@[simp] theorem st_setStackEntry (k : Nibble) (w : Word) : (s.setStackEntry k w).st = s.st := rfl
@[simp] theorem disp_setStackEntry (k : Nibble) (w : Word) : (s.setStackEntry k w).disp = s.disp := rfl
@[simp] theorem drawFlag_setStackEntry (k : Nibble) (w : Word) : (s.setStackEntry k w).drawFlag = s.drawFlag := rfl
@[simp] theorem key_setStackEntry (k : Nibble) (w : Word) : (s.setStackEntry k w).key = s.key := rfl
@[simp] theorem draws_setStackEntry (k : Nibble) (w : Word) : (s.setStackEntry k w).draws = s.draws := rfl
@[simp] theorem v_setStackEntry (k : Nibble) (w : Word) (i : Nibble) : (s.setStackEntry k w).v i = s.v i := rfl
@[simp] theorem pressed_setStackEntry (k : Nibble) (w : Word) (i : Nibble) : (s.setStackEntry k w).pressed i = s.pressed i := rfl
@[simp] theorem byteAt_setStackEntry (k : Nibble) (w : Word) (a : Nat) : (s.setStackEntry k w).byteAt a = s.byteAt a := rfl
@[simp] theorem pixel_setStackEntry (k : Nibble) (w : Word) (px : Fin 64) (py : Fin 32) : (s.setStackEntry k w).pixel px py = s.pixel px py := rfl

@[simp] theorem mem_setSp (b : Byte) : (s.setSp b).mem = s.mem := rfl
@[simp] theorem V_setSp (b : Byte) : (s.setSp b).V = s.V := rfl
@[simp] theorem I_setSp (b : Byte) : (s.setSp b).I = s.I := rfl
@[simp] theorem pc_setSp (b : Byte) : (s.setSp b).pc = s.pc := rfl
@[simp] theorem stack_setSp (b : Byte) : (s.setSp b).stack = s.stack := rfl
@[simp] theorem sp_setSp (b : Byte) : (s.setSp b).sp = b := rfl
@[simp] theorem dt_setSp (b : Byte) : (s.setSp b).dt = s.dt := rfl
@[simp] theorem st_setSp (b : Byte) : (s.setSp b).st = s.st := rfl
@[simp] theorem disp_setSp (b : Byte) : (s.setSp b).disp = s.disp := rfl
@[simp] theorem drawFlag_setSp (b : Byte) : (s.setSp b).drawFlag = s.drawFlag := rfl
@[simp] theorem key_setSp (b : Byte) : (s.setSp b).key = s.key := rfl
@[simp] theorem draws_setSp (b : Byte) : (s.setSp b).draws = s.draws := rfl
@[simp] theorem v_setSp (b : Byte) (i : Nibble) : (s.setSp b).v i = s.v i := rfl
@[simp] theorem stackEntry_setSp (b : Byte) (i : Nibble) : (s.setSp b).stackEntry i = s.stackEntry i := rfl
@[simp] theorem pressed_setSp (b : Byte) (i : Nibble) : (s.setSp b).pressed i = s.pressed i := rfl
@[simp] theorem byteAt_setSp (b : Byte) (a : Nat) : (s.setSp b).byteAt a = s.byteAt a := rfl
@[simp] theorem pixel_setSp (b : Byte) (px : Fin 64) (py : Fin 32) : (s.setSp b).pixel px py = s.pixel px py := rfl

@[simp] theorem mem_setDt (b : Byte) : (s.setDt b).mem = s.mem := rfl
@[simp] theorem V_setDt (b : Byte) : (s.setDt b).V = s.V := rfl
@[simp] theorem I_setDt (b : Byte) : (s.setDt b).I = s.I := rfl
@[simp] theorem pc_setDt (b : Byte) : (s.setDt b).pc = s.pc := rfl
@[simp] theorem stack_setDt (b : Byte) : (s.setDt b).stack = s.stack := rfl
@[simp] theorem sp_setDt (b : Byte) : (s.setDt b).sp = s.sp := rfl
@[simp] theorem dt_setDt (b : Byte) : (s.setDt b).dt = b := rfl
@[simp] theorem st_setDt (b : Byte) : (s.setDt b).st = s.st := rfl
@[simp] theorem disp_setDt (b : Byte) : (s.setDt b).disp = s.disp := rfl
@[simp] theorem drawFlag_setDt (b : Byte) : (s.setDt b).drawFlag = s.drawFlag := rfl
@[simp] theorem key_setDt (b : Byte) : (s.setDt b).key = s.key := rfl
@[simp] theorem draws_setDt (b : Byte) : (s.setDt b).draws = s.draws := rfl
@[simp] theorem v_setDt (b : Byte) (i : Nibble) : (s.setDt b).v i = s.v i := rfl
@[simp] theorem stackEntry_setDt (b : Byte) (i : Nibble) : (s.setDt b).stackEntry i = s.stackEntry i := rfl
@[simp] theorem pressed_setDt (b : Byte) (i : Nibble) : (s.setDt b).pressed i = s.pressed i := rfl
@[simp] theorem byteAt_setDt (b : Byte) (a : Nat) : (s.setDt b).byteAt a = s.byteAt a := rfl
@[simp] theorem pixel_setDt (b : Byte) (px : Fin 64) (py : Fin 32) : (s.setDt b).pixel px py = s.pixel px py := rfl

@[simp] theorem mem_setSt (b : Byte) : (s.setSt b).mem = s.mem := rfl
@[simp] theorem V_setSt (b : Byte) : (s.setSt b).V = s.V := rfl
@[simp] theorem I_setSt (b : Byte) : (s.setSt b).I = s.I := rfl
@[simp] theorem pc_setSt (b : Byte) : (s.setSt b).pc = s.pc := rfl
@[simp] theorem stack_setSt (b : Byte) : (s.setSt b).stack = s.stack := rfl
@[simp] theorem sp_setSt (b : Byte) : (s.setSt b).sp = s.sp := rfl
@[simp] theorem dt_setSt (b : Byte) : (s.setSt b).dt = s.dt := rfl
@[simp] theorem st_setSt (b : Byte) : (s.setSt b).st = b := rfl
@[simp] theorem disp_setSt (b : Byte) : (s.setSt b).disp = s.disp := rfl
@[simp] theorem drawFlag_setSt (b : Byte) : (s.setSt b).drawFlag = s.drawFlag := rfl
@[simp] theorem key_setSt (b : Byte) : (s.setSt b).key = s.key := rfl
@[simp] theorem draws_setSt (b : Byte) : (s.setSt b).draws = s.draws := rfl
@[simp] theorem v_setSt (b : Byte) (i : Nibble) : (s.setSt b).v i = s.v i := rfl
@[simp] theorem stackEntry_setSt (b : Byte) (i : Nibble) : (s.setSt b).stackEntry i = s.stackEntry i := rfl
@[simp] theorem pressed_setSt (b : Byte) (i : Nibble) : (s.setSt b).pressed i = s.pressed i := rfl
@[simp] theorem byteAt_setSt (b : Byte) (a : Nat) : (s.setSt b).byteAt a = s.byteAt a := rfl
@[simp] theorem pixel_setSt (b : Byte) (px : Fin 64) (py : Fin 32) : (s.setSt b).pixel px py = s.pixel px py := rfl

@[simp] theorem mem_setDisp (d : Display) : (s.setDisp d).mem = s.mem := rfl
@[simp] theorem V_setDisp (d : Display) : (s.setDisp d).V = s.V := rfl
@[simp] theorem I_setDisp (d : Display) : (s.setDisp d).I = s.I := rfl
@[simp] theorem pc_setDisp (d : Display) : (s.setDisp d).pc = s.pc := rfl
@[simp] theorem stack_setDisp (d : Display) : (s.setDisp d).stack = s.stack := rfl
@[simp] theorem sp_setDisp (d : Display) : (s.setDisp d).sp = s.sp := rfl
@[simp] theorem dt_setDisp (d : Display) : (s.setDisp d).dt = s.dt := rfl
@[simp] theorem st_setDisp (d : Display) : (s.setDisp d).st = s.st := rfl
@[simp] theorem disp_setDisp (d : Display) : (s.setDisp d).disp = d := rfl
@[simp] theorem drawFlag_setDisp (d : Display) : (s.setDisp d).drawFlag = s.drawFlag := rfl
@[simp] theorem key_setDisp (d : Display) : (s.setDisp d).key = s.key := rfl
@[simp] theorem draws_setDisp (d : Display) : (s.setDisp d).draws = s.draws := rfl
@[simp] theorem v_setDisp (d : Display) (i : Nibble) : (s.setDisp d).v i = s.v i := rfl
@[simp] theorem stackEntry_setDisp (d : Display) (i : Nibble) : (s.setDisp d).stackEntry i = s.stackEntry i := rfl
@[simp] theorem pressed_setDisp (d : Display) (i : Nibble) : (s.setDisp d).pressed i = s.pressed i := rfl
@[simp] theorem byteAt_setDisp (d : Display) (a : Nat) : (s.setDisp d).byteAt a = s.byteAt a := rfl

@[simp] theorem mem_setDrawFlag (b : Bool) : (s.setDrawFlag b).mem = s.mem := rfl
@[simp] theorem V_setDrawFlag (b : Bool) : (s.setDrawFlag b).V = s.V := rfl
@[simp] theorem I_setDrawFlag (b : Bool) : (s.setDrawFlag b).I = s.I := rfl
@[simp] theorem pc_setDrawFlag (b : Bool) : (s.setDrawFlag b).pc = s.pc := rfl
@[simp] theorem stack_setDrawFlag (b : Bool) : (s.setDrawFlag b).stack = s.stack := rfl
@[simp] theorem sp_setDrawFlag (b : Bool) : (s.setDrawFlag b).sp = s.sp := rfl
@[simp] theorem dt_setDrawFlag (b : Bool) : (s.setDrawFlag b).dt = s.dt := rfl
@[simp] theorem st_setDrawFlag (b : Bool) : (s.setDrawFlag b).st = s.st := rfl
@[simp] theorem disp_setDrawFlag (b : Bool) : (s.setDrawFlag b).disp = s.disp := rfl
@[simp] theorem drawFlag_setDrawFlag (b : Bool) : (s.setDrawFlag b).drawFlag = b := rfl
@[simp] theorem key_setDrawFlag (b : Bool) : (s.setDrawFlag b).key = s.key := rfl
@[simp] theorem draws_setDrawFlag (b : Bool) : (s.setDrawFlag b).draws = s.draws := rfl
@[simp] theorem v_setDrawFlag (b : Bool) (i : Nibble) : (s.setDrawFlag b).v i = s.v i := rfl
@[simp] theorem stackEntry_setDrawFlag (b : Bool) (i : Nibble) : (s.setDrawFlag b).stackEntry i = s.stackEntry i := rfl
@[simp] theorem pressed_setDrawFlag (b : Bool) (i : Nibble) : (s.setDrawFlag b).pressed i = s.pressed i := rfl
@[simp] theorem byteAt_setDrawFlag (b : Bool) (a : Nat) : (s.setDrawFlag b).byteAt a = s.byteAt a := rfl
@[simp] theorem pixel_setDrawFlag (b : Bool) (px : Fin 64) (py : Fin 32) : (s.setDrawFlag b).pixel px py = s.pixel px py := rfl

@[simp] theorem mem_setKey (k : Nibble) (b : Bool) : (s.setKey k b).mem = s.mem := rfl
@[simp] theorem V_setKey (k : Nibble) (b : Bool) : (s.setKey k b).V = s.V := rfl
@[simp] theorem I_setKey (k : Nibble) (b : Bool) : (s.setKey k b).I = s.I := rfl
@[simp] theorem pc_setKey (k : Nibble) (b : Bool) : (s.setKey k b).pc = s.pc := rfl
@[simp] theorem stack_setKey (k : Nibble) (b : Bool) : (s.setKey k b).stack = s.stack := rfl
@[simp] theorem sp_setKey (k : Nibble) (b : Bool) : (s.setKey k b).sp = s.sp := rfl
@[simp] theorem dt_setKey (k : Nibble) (b : Bool) : (s.setKey k b).dt = s.dt := rfl
@[simp] theorem st_setKey (k : Nibble) (b : Bool) : (s.setKey k b).st = s.st := rfl
@[simp] theorem disp_setKey (k : Nibble) (b : Bool) : (s.setKey k b).disp = s.disp := rfl
@[simp] theorem drawFlag_setKey (k : Nibble) (b : Bool) : (s.setKey k b).drawFlag = s.drawFlag := rfl
@[simp] theorem key_setKey (k : Nibble) (b : Bool) : (s.setKey k b).key = s.key.set k.toNat b k.isLt := rfl
@[simp] theorem draws_setKey (k : Nibble) (b : Bool) : (s.setKey k b).draws = s.draws := rfl
@[simp] theorem v_setKey (k : Nibble) (b : Bool) (i : Nibble) : (s.setKey k b).v i = s.v i := rfl
@[simp] theorem stackEntry_setKey (k : Nibble) (b : Bool) (i : Nibble) : (s.setKey k b).stackEntry i = s.stackEntry i := rfl
@[simp] theorem byteAt_setKey (k : Nibble) (b : Bool) (a : Nat) : (s.setKey k b).byteAt a = s.byteAt a := rfl
@[simp] theorem pixel_setKey (k : Nibble) (b : Bool) (px : Fin 64) (py : Fin 32) : (s.setKey k b).pixel px py = s.pixel px py := rfl

@[simp] theorem mem_setMem (m : Memory) : (s.setMem m).mem = m := rfl
@[simp] theorem V_setMem (m : Memory) : (s.setMem m).V = s.V := rfl
@[simp] theorem I_setMem (m : Memory) : (s.setMem m).I = s.I := rfl
@[simp] theorem pc_setMem (m : Memory) : (s.setMem m).pc = s.pc := rfl
@[simp] theorem stack_setMem (m : Memory) : (s.setMem m).stack = s.stack := rfl
@[simp] theorem sp_setMem (m : Memory) : (s.setMem m).sp = s.sp := rfl
@[simp] theorem dt_setMem (m : Memory) : (s.setMem m).dt = s.dt := rfl
@[simp] theorem st_setMem (m : Memory) : (s.setMem m).st = s.st := rfl
@[simp] theorem disp_setMem (m : Memory) : (s.setMem m).disp = s.disp := rfl
@[simp] theorem drawFlag_setMem (m : Memory) : (s.setMem m).drawFlag = s.drawFlag := rfl
@[simp] theorem key_setMem (m : Memory) : (s.setMem m).key = s.key := rfl
@[simp] theorem draws_setMem (m : Memory) : (s.setMem m).draws = s.draws := rfl
@[simp] theorem v_setMem (m : Memory) (i : Nibble) : (s.setMem m).v i = s.v i := rfl
@[simp] theorem stackEntry_setMem (m : Memory) (i : Nibble) : (s.setMem m).stackEntry i = s.stackEntry i := rfl
@[simp] theorem pressed_setMem (m : Memory) (i : Nibble) : (s.setMem m).pressed i = s.pressed i := rfl
@[simp] theorem pixel_setMem (m : Memory) (px : Fin 64) (py : Fin 32) : (s.setMem m).pixel px py = s.pixel px py := rfl

@[simp] theorem mem_setDraws (n : Nat) : (s.setDraws n).mem = s.mem := rfl
@[simp] theorem V_setDraws (n : Nat) : (s.setDraws n).V = s.V := rfl
@[simp] theorem I_setDraws (n : Nat) : (s.setDraws n).I = s.I := rfl
@[simp] theorem pc_setDraws (n : Nat) : (s.setDraws n).pc = s.pc := rfl
@[simp] theorem stack_setDraws (n : Nat) : (s.setDraws n).stack = s.stack := rfl
@[simp] theorem sp_setDraws (n : Nat) : (s.setDraws n).sp = s.sp := rfl
@[simp] theorem dt_setDraws (n : Nat) : (s.setDraws n).dt = s.dt := rfl
@[simp] theorem st_setDraws (n : Nat) : (s.setDraws n).st = s.st := rfl
@[simp] theorem disp_setDraws (n : Nat) : (s.setDraws n).disp = s.disp := rfl
@[simp] theorem drawFlag_setDraws (n : Nat) : (s.setDraws n).drawFlag = s.drawFlag := rfl
@[simp] theorem key_setDraws (n : Nat) : (s.setDraws n).key = s.key := rfl
@[simp] theorem draws_setDraws (n : Nat) : (s.setDraws n).draws = n := rfl
@[simp] theorem v_setDraws (n : Nat) (i : Nibble) : (s.setDraws n).v i = s.v i := rfl
@[simp] theorem stackEntry_setDraws (n : Nat) (i : Nibble) : (s.setDraws n).stackEntry i = s.stackEntry i := rfl
@[simp] theorem pressed_setDraws (n : Nat) (i : Nibble) : (s.setDraws n).pressed i = s.pressed i := rfl
@[simp] theorem byteAt_setDraws (n : Nat) (a : Nat) : (s.setDraws n).byteAt a = s.byteAt a := rfl
@[simp] theorem pixel_setDraws (n : Nat) (px : Fin 64) (py : Fin 32) : (s.setDraws n).pixel px py = s.pixel px py := rfl

/-- V[i] after V[x] <- b. -/
@[simp] theorem v_setV (x : Nibble) (b : Byte) (i : Nibble) : (s.setV x b).v i = if i = x then b else s.v i := by
  simp [State.setV, State.v, Vector.getElem_set, ← BitVec.toNat_inj, eq_comm]

/-- stack[i] after stack[k] <- w. -/
@[simp] theorem stackEntry_setStackEntry (k : Nibble) (w : Word) (i : Nibble) :
    (s.setStackEntry k w).stackEntry i = if i = k then w else s.stackEntry i := by
  simp [State.setStackEntry, State.stackEntry, Vector.getElem_set, ← BitVec.toNat_inj, eq_comm]

/-- key[i] after key[k] <- b. -/
@[simp] theorem pressed_setKey (k : Nibble) (b : Bool) (i : Nibble) :
    (s.setKey k b).pressed i = if i = k then b else s.pressed i := by
  simp [State.setKey, State.pressed, Vector.getElem_set, ← BitVec.toNat_inj, eq_comm]

@[simp] theorem v_setRegs (u : Vector Byte 16) (i : Nibble) : (s.setRegs u).v i = u[i.toNat]'i.isLt := rfl

@[simp] theorem byteAt_setMem (m : Memory) (a : Nat) : (s.setMem m).byteAt a = m.read a := rfl

@[simp] theorem pixel_setDisp (d : Display) (px : Fin 64) (py : Fin 32) : (s.setDisp d).pixel px py = Display.pixel d px py := rfl

end Sys2Proof.Machine
end

