-- ==== Sys2Proof/Laws/Ops.lean ====
section
/-! SUPPORT. What each shared operation can do: the commit, the fetch, register blocks, keys and digits, the stack check. -/
namespace Sys2Proof.Machine

/-- The one way an instruction completes: its writes, then pc. -/
theorem done_eq (s w : State) (nxt : NextPc) : done s w nxt = .next (w.setPc (nxt.target s.pc)) := rfl

/-- An error is no next state. -/
theorem raise_eq (f : Fault) : raise f = .fault f := rfl

/-- A wait is the same state again. -/
theorem wait_eq (s : State) : wait s = .next s := rfl

/-- An ALU result: one register and pc. -/
theorem writeReg_eq (s : State) (x : Nibble) (b : Byte) : writeReg s x b = .next ((s.setV x b).setPc (s.pc + 2)) := rfl

/-- An ALU result with a flag: the register, then VF, then pc. -/
theorem writeRegFlag_eq (s : State) (x : Nibble) (b : Byte) (f : Bool) :
    writeRegFlag s x b f = .next (((s.setV x b).setV flagIdx (flagByte f)).setPc (s.pc + 2)) := rfl

/-- A skip: pc only. -/
theorem skipIf_eq (s : State) (c : Bool) : skipIf s c = .next (s.setPc (if c then s.pc + 4 else s.pc + 2)) := rfl

/-- A skip on a key: pc only where V[x] names a key, else the one error. -/
theorem skipOnKey_eq (s : State) (x : Nibble) (want : Bool) : skipOnKey s x want =
    if (s.v x).toNat ≤ 0xF then .next (s.setPc (if s.pressed (hexDigit (s.v x)) == want then s.pc + 4 else s.pc + 2))
    else .fault (.invalidKey (s.v x)) := by
  simp [skipOnKey, isHexDigit, skipIf_eq, raise]

theorem next_inj {s t : State} : (.next s : Result) = .next t ↔ s = t := by
  constructor
  · intro h; cases h; rfl
  · rintro rfl; rfl

/-- The fetch reads the two bytes at pc when both are in memory, and else gives the one error. -/
theorem fetch_of_le {s : State} (h : s.pc.toNat + 1 ≤ 0xFFF) :
    fetch s = .ok (wordOfBytes (s.byteAt s.pc.toNat) (s.byteAt (s.pc.toNat + 1))) := by
  rw [fetch, if_pos]; rw [inRange_iff]; omega

theorem fetch_of_gt {s : State} (h : 0xFFF < s.pc.toNat + 1) : fetch s = .error (.addressOutOfRange s.pc) := by
  rw [fetch, if_neg]; rw [inRange_iff]; omega

/-- A word placed at pc is the word fetched there. -/
theorem fetch_placeWord {s : State} (h : s.pc.toNat + 1 ≤ 0xFFF) (w : Word) : fetch (placeWord s w) = .ok w := by
  have hr : inRange s.pc.toNat 2 = true := by rw [inRange_iff]; omega
  rw [placeWord, if_pos hr, fetch_of_le (by simpa using h)]
  simp [bytesOfWord, Memory.store]

/-- A flag's byte is 1 or 0. -/
theorem flagByte_toNat (f : Bool) : (flagByte f).toNat = if f then 1 else 0 := by cases f <;> rfl

/-- stackPtrInvalid is the check of R120 on the signed value. -/
theorem stackPtrInvalid_iff (sp : Byte) : stackPtrInvalid sp = true ↔ sp.toInt < 0 ∨ 16 ≤ sp.toInt := by
  simp [stackPtrInvalid]

/-- A stack pointer in 0..15 is its entry's index. -/
theorem stackPtr_of_nibble (k : Nibble) : ((k.setWidth 8 : Byte)).toInt = (k.toNat : Int) := by
  revert k; decide

theorem stackIdx_of_nibble (k : Nibble) : stackIdx (k.setWidth 8) = k := by revert k; decide

/-- A value in 0..15 is a hex digit, and names that digit. -/
theorem isHexDigit_iff (v : Byte) : isHexDigit v = true ↔ v.toNat ≤ 0xF := by simp [isHexDigit]

theorem isHexDigit_of_nibble (k : Nibble) : isHexDigit (k.setWidth 8) = true := by revert k; decide

theorem hexDigit_of_nibble (k : Nibble) : hexDigit (k.setWidth 8) = k := by revert k; decide

/-- The block write: V[i] for i below n is the byte at a + i, the rest is as before. -/
theorem loadBlock_get (m : Memory) (a : Nat) (v : Vector Byte 16) (n i : Nat) (hi : i < 16) :
    (loadBlock m a v n)[i] = if i < n then m.read (a + i) else v[i] := by
  induction n with
  | zero => simp [loadBlock]
  | succ n ih =>
    simp only [loadBlock, Vector.getElem_setIfInBounds, ih]
    by_cases h : n = i
    · simp [h]
    · rw [if_neg h]; congr 1; simp; omega

/-- The block read has x + 1 bytes, the i-th being V[i]. -/
theorem regBlock_length (s : State) (x : Nibble) : (regBlock s x).length = x.toNat + 1 := by
  simp [regBlock]; omega

theorem regBlock_getD (s : State) (x i : Nibble) (h : i.toNat ≤ x.toNat) : (regBlock s x).getD i.toNat 0 = s.v i := by
  have hi : i.toNat < 16 := i.isLt
  simp [regBlock, State.v, show i.toNat < x.toNat + 1 by omega, Vector.getElem?_eq_getElem hi]

theorem bcdBytes_length (v : Byte) : (bcdBytes v).length = 3 := rfl

theorem mem_allKeys (k : Nibble) : k ∈ allKeys := by revert k; decide

theorem lt_of_allKeys : allKeys.Pairwise (fun a b => a.toNat < b.toNat) := by decide

/-- No key is the lowest exactly when none is pressed. -/
theorem lowestKey_eq_none {s : State} : lowestKey s = none ↔ ∀ k, s.pressed k = false := by
  simp only [lowestKey, List.find?_eq_none, Bool.not_eq_true]
  exact ⟨fun h k => h k (mem_allKeys k), fun h k _ => h k⟩

/-- The lowest key is the pressed one below which none is pressed. -/
theorem lowestKey_eq_some {s : State} {k : Nibble} :
    lowestKey s = some k ↔ s.pressed k = true ∧ ∀ j : Nibble, j.toNat < k.toNat → s.pressed j = false := by
  rw [lowestKey, List.find?_eq_some_iff_append]
  constructor
  · rintro ⟨hk, l, r, hl, hn⟩
    refine ⟨hk, fun j hj => ?_⟩
    have hp := lt_of_allKeys
    have hjm := mem_allKeys j
    rw [hl] at hp hjm
    rcases List.mem_append.1 hjm with h | h
    · simpa using hn j h
    · have hp := (List.pairwise_append.1 hp).2.1
      rcases List.mem_cons.1 h with rfl | h
      · omega
      · have := (List.pairwise_cons.1 hp).1 j h; omega
  · rintro ⟨hk, hlow⟩
    obtain ⟨l, r, hl⟩ := List.append_of_mem (mem_allKeys k)
    refine ⟨hk, l, r, hl, fun j hj => ?_⟩
    have hp := lt_of_allKeys
    rw [hl] at hp
    simpa using hlow j ((List.pairwise_append.1 hp).2.2 j hj k (by simp))

end Sys2Proof.Machine
end

