-- ==== Sys2Proof/Laws/Draw.lean ====
section
/-! SUPPORT. What drawing does to each pixel and when it collides: the loops of spec/46_display.md R233 against the closed form
spriteCovers. -/
namespace Sys2Proof.Machine

/-- Toggling one pixel. -/
theorem Display.pixel_toggle (d : Display) (px : Fin 64) (py : Fin 32) (x : Fin 64) (y : Fin 32) :
    (Display.toggle d px py).pixel x y = (d.pixel x y ^^ decide (x = px ∧ y = py)) := by
  simp only [Display.pixel, Display.toggle, Fin.getElem_fin, Vector.getElem_set]
  by_cases hy : y = py
  · subst hy
    by_cases hx : x = px
    · subst hx; simp
    · simp [hx, Fin.val_inj, Ne.symm hx]
  · simp [hy, Fin.val_inj, Ne.symm hy]

/-- The sprite column of a display column, and the sprite row of a display row. -/
def spriteCol (x0 : Byte) (x : Fin 64) : Nat := (x.val + 64 - x0.toNat % 64) % 64
def spriteRow (y0 : Byte) (y : Fin 32) : Nat := (y.val + 32 - y0.toNat % 32) % 32

theorem eq_column_iff (x0 : Byte) (x : Fin 64) (c : Nat) (hc : c < 64) :
    x = columnOf x0 c ↔ spriteCol x0 x = c := by
  have hx := x.isLt
  rw [← Fin.val_inj, spriteCol, columnOf]; dsimp only; omega

theorem eq_row_iff (y0 : Byte) (y : Fin 32) (r : Nat) (hr : r < 32) :
    y = rowOf y0 r ↔ spriteRow y0 y = r := by
  have hy := y.isLt
  rw [← Fin.val_inj, spriteRow, rowOf]; dsimp only; omega

/-- The pixels the first n columns of row r, with byte b, cover with a set bit. -/
def rowCovers (x0 y0 : Byte) (r : Nat) (b : Byte) (n : Nat) (x : Fin 64) (y : Fin 32) : Bool :=
  decide (spriteCol x0 x < n) && decide (spriteRow y0 y = r) && b.getLsbD (7 - spriteCol x0 x)

theorem drawBit_pixel (x0 y0 : Byte) (r : Nat) (b : Byte) (acc : Display × Bool) (c : Nat) (x : Fin 64) (y : Fin 32)
    (hr : r < 32) (hc : c < 8) :
    (drawBit x0 y0 r b acc c).1.pixel x y
      = (acc.1.pixel x y ^^ (decide (spriteCol x0 x = c) && decide (spriteRow y0 y = r) && b.getLsbD (7 - c))) := by
  unfold drawBit
  split
  · rename_i hb
    rw [Display.pixel_toggle]; simp [hb, eq_column_iff x0 x c (by omega), eq_row_iff y0 y r hr]
  · rename_i hb; simp [hb]

theorem drawBit_collision (x0 y0 : Byte) (r : Nat) (b : Byte) (acc : Display × Bool) (c : Nat) :
    (drawBit x0 y0 r b acc c).2 = true ↔ acc.2 = true ∨ (b.getLsbD (7 - c) = true ∧
      acc.1.pixel (columnOf x0 c) (rowOf y0 r) = true) := by
  unfold drawBit
  split <;> rename_i hb <;> simp [hb]

/-- The first n columns of a row: the pixels they cover are inverted, and a covered pixel that was set is a collision. -/
theorem drawColumns_spec (x0 y0 : Byte) (r : Nat) (b : Byte) (acc : Display × Bool) (hr : r < 32) (n : Nat) (hn : n ≤ 8) :
    (∀ x y, ((List.range n).foldl (drawBit x0 y0 r b) acc).1.pixel x y = (acc.1.pixel x y ^^ rowCovers x0 y0 r b n x y)) ∧
    (((List.range n).foldl (drawBit x0 y0 r b) acc).2 = true ↔
      acc.2 = true ∨ ∃ x y, rowCovers x0 y0 r b n x y = true ∧ acc.1.pixel x y = true) := by
  induction n with
  | zero => simp [rowCovers]
  | succ n ih =>
    obtain ⟨ihp, ihc⟩ := ih (by omega)
    rw [List.range_succ, List.foldl_append]
    constructor
    · intro x y
      simp only [List.foldl_cons, List.foldl_nil]
      rw [drawBit_pixel _ _ _ _ _ _ _ _ hr (by omega), ihp, rowCovers, rowCovers]
      by_cases h : spriteCol x0 x = n
      · simp [h]
      · have : (spriteCol x0 x < n + 1) ↔ (spriteCol x0 x < n) := by omega
        simp [h, this]
    · simp only [List.foldl_cons, List.foldl_nil]
      rw [drawBit_collision, ihc, ihp]
      have hcol := (eq_column_iff x0 (columnOf x0 n) n (by omega)).1 rfl
      have hrow := (eq_row_iff y0 (rowOf y0 r) r hr).1 rfl
      rw [rowCovers, hcol]
      simp only [lt_irrefl, decide_false, Bool.false_and, Bool.xor_false]
      constructor
      · rintro ((h | ⟨x, y, h1, h2⟩) | ⟨hb, hp⟩)
        · exact .inl h
        · refine .inr ⟨x, y, ?_, h2⟩
          simp only [rowCovers, Bool.and_eq_true, decide_eq_true_eq] at h1 ⊢
          exact ⟨⟨by omega, h1.1.2⟩, h1.2⟩
        · exact .inr ⟨_, _, by simp [rowCovers, hcol, hrow, hb], hp⟩
      · rintro (h | ⟨x, y, h1, h2⟩)
        · exact .inl (.inl h)
        · simp only [rowCovers, Bool.and_eq_true, decide_eq_true_eq] at h1
          by_cases h : spriteCol x0 x = n
          · refine .inr ⟨h ▸ h1.2, ?_⟩
            rw [← (eq_column_iff x0 x n (by omega)).2 h, ← (eq_row_iff y0 y r hr).2 h1.1.2]; exact h2
          · refine .inl (.inr ⟨x, y, ?_, h2⟩)
            simp only [rowCovers, Bool.and_eq_true, decide_eq_true_eq]
            exact ⟨⟨by omega, h1.1.2⟩, h1.2⟩

/-- The pixels the rows from row r on cover with a set bit. -/
def rowsCover (x0 y0 : Byte) (r : Nat) (rows : List Byte) (x : Fin 64) (y : Fin 32) : Bool :=
  decide (spriteCol x0 x < 8) && decide (r ≤ spriteRow y0 y) &&
    (rows.getD (spriteRow y0 y - r) 0).getLsbD (7 - spriteCol x0 x)

theorem rowsCover_cons (x0 y0 : Byte) (r : Nat) (b : Byte) (bs : List Byte) (x : Fin 64) (y : Fin 32) :
    rowsCover x0 y0 r (b :: bs) x y = (rowCovers x0 y0 r b 8 x y ^^ rowsCover x0 y0 (r + 1) bs x y) ∧
      (rowCovers x0 y0 r b 8 x y = true → rowsCover x0 y0 (r + 1) bs x y = false) := by
  unfold rowsCover rowCovers
  by_cases h : spriteRow y0 y = r
  · have : ¬ (r + 1 ≤ r) := by omega
    simp [h]
  · by_cases h2 : r ≤ spriteRow y0 y
    · obtain ⟨k, hk⟩ : ∃ k, spriteRow y0 y = r + 1 + k := ⟨spriteRow y0 y - (r + 1), by omega⟩
      have e : r + 1 + k - r = k + 1 := by omega
      have e2 : ¬ (r + 1 + k = r) := by omega
      simp [hk, e, e2, show r ≤ r + 1 + k by omega]
    · have : ¬ (r + 1 ≤ spriteRow y0 y) := by omega
      simp [h, h2, this]

/-- Rows from row r on: the pixels they cover are inverted, and a covered pixel that was set is a collision. -/
theorem drawRows_spec (x0 y0 : Byte) (rows : List Byte) (r : Nat) (acc : Display × Bool) (hr : r + rows.length ≤ 32) :
    (∀ x y, (drawRows x0 y0 r rows acc).1.pixel x y = (acc.1.pixel x y ^^ rowsCover x0 y0 r rows x y)) ∧
    ((drawRows x0 y0 r rows acc).2 = true ↔
      acc.2 = true ∨ ∃ x y, rowsCover x0 y0 r rows x y = true ∧ acc.1.pixel x y = true) := by
  induction rows generalizing r acc with
  | nil => simp [drawRows, rowsCover]
  | cons b bs ih =>
    simp only [List.length_cons] at hr
    obtain ⟨hp, hc⟩ := drawColumns_spec x0 y0 r b acc (by omega) 8 le_rfl
    obtain ⟨ihp, ihc⟩ := ih (r + 1) (drawRow x0 y0 r b acc) (by omega)
    refine ⟨fun x y => ?_, ?_⟩
    · rw [drawRows, ihp, drawRow, hp, (rowsCover_cons x0 y0 r b bs x y).1]
      simp
    · rw [drawRows, ihc, drawRow, hc]
      simp only [hp]
      constructor
      · rintro ((h | ⟨x, y, h1, h2⟩) | ⟨x, y, h1, h2⟩)
        · exact .inl h
        · obtain ⟨e, hd⟩ := rowsCover_cons x0 y0 r b bs x y
          exact .inr ⟨x, y, by rw [e, h1, hd h1]; rfl, h2⟩
        · obtain ⟨e, hd⟩ := rowsCover_cons x0 y0 r b bs x y
          cases hq : rowCovers x0 y0 r b 8 x y
          · exact .inr ⟨x, y, by rw [e, h1, hq]; rfl, by simpa [hq] using h2⟩
          · rw [hd hq] at h1; cases h1
      · rintro (h | ⟨x, y, h1, h2⟩)
        · exact .inl (.inl h)
        · obtain ⟨e, hd⟩ := rowsCover_cons x0 y0 r b bs x y
          cases hq : rowCovers x0 y0 r b 8 x y
          · exact .inr ⟨x, y, by simpa [e, hq] using h1, by simpa [hq] using h2⟩
          · exact .inl (.inr ⟨x, y, hq, h2⟩)

/-- Whether a sprite of these rows drawn at (x0, y0) covers pixel (x, y) with a set bit: the pixel's column and row of the
sprite, taken modulo the display's size (spec/46_display.md R232, R233, R234 a). -/
def spriteCovers (x0 y0 : Byte) (rows : List Byte) (x : Fin 64) (y : Fin 32) : Bool :=
  let c := (x.val + 64 - x0.toNat % 64) % 64
  let r := (y.val + 32 - y0.toNat % 32) % 32
  decide (c < 8) && (rows.getD r 0).getLsbD (7 - c)

theorem rowsCover_zero (x0 y0 : Byte) (rows : List Byte) (x : Fin 64) (y : Fin 32) :
    rowsCover x0 y0 0 rows x y = spriteCovers x0 y0 rows x y := by
  unfold rowsCover spriteCovers spriteCol spriteRow
  simp only [Nat.zero_le, decide_true, Bool.and_true, Nat.sub_zero]

/-- A whole sprite of at most 32 rows. -/
theorem drawSprite_spec (x0 y0 : Byte) (rows : List Byte) (d : Display) (h : rows.length ≤ 32) :
    (∀ x y, (drawRows x0 y0 0 rows (d, false)).1.pixel x y = (d.pixel x y ^^ spriteCovers x0 y0 rows x y)) ∧
    ((drawRows x0 y0 0 rows (d, false)).2 = true ↔ ∃ x y, spriteCovers x0 y0 rows x y = true ∧ d.pixel x y = true) := by
  have hs := drawRows_spec x0 y0 rows 0 (d, false) (by omega)
  simpa only [rowsCover_zero, Bool.false_eq_true, false_or] using hs

/-- The blank display has no set pixel. -/
theorem pixel_blank (x : Fin 64) (y : Fin 32) : Display.pixel Display.blank x y = false := by
  simp [Display.pixel, Display.blank]

end Sys2Proof.Machine
end

