-- ==== Sys2Proof/Laws/PerInstr.lean ====
section
/-! SUPPORT. The statements made per instruction. MatchesRow: the word an instruction encodes to matches the row of the opcode
map (spec/30_encoding.md R75) that carries the instruction's mnemonic. -/
namespace Sys2Proof.Laws.MatchesRow

/-- Some row of the map has this instruction's name and matches its word. -/
def Statement (i : Instr) : Prop := ∃ row ∈ opcodeMap, row.mnemonic = i.mnemonic ∧ row.matchesWord (encode i) = true

theorem of_row {i : Instr} (row : OpcodeRow) (hrow : row ∈ opcodeMap) (hname : row.mnemonic = i.mnemonic)
    (hmask : encode i &&& row.mask = row.pattern) : Statement i :=
  ⟨row, hrow, hname, by simp [OpcodeRow.matchesWord, hmask]⟩

/-! What each mask of the map keeps of a word in each format. -/

theorem mask_wordA (op : Nibble) (nnn : Addr) : wordA op nnn &&& 0xF000 = wordA op 0 := by
  apply BitVec.eq_of_getLsbD_eq
  intro k hk
  have h : (0xF000#16).getLsbD k = decide (12 ≤ k) := by revert k; decide
  simp [wordA, h]; grind

theorem mask_wordXK (op x : Nibble) (kk : Byte) : wordXK op x kk &&& 0xF000 = wordXK op 0 0 := by
  apply BitVec.eq_of_getLsbD_eq
  intro k hk
  have h : (0xF000#16).getLsbD k = decide (12 ≤ k) := by revert k; decide
  simp [wordXK, h]; grind

theorem mask_wordXF (op x : Nibble) (kk : Byte) : wordXK op x kk &&& 0xF0FF = wordXK op 0 kk := by
  apply BitVec.eq_of_getLsbD_eq
  intro k hk
  have h : (0xF0FF#16).getLsbD k = (decide (12 ≤ k) || decide (k < 8)) := by revert k; decide
  simp [wordXK, h]; grind

theorem mask_wordXYN (op x y n : Nibble) : wordXY op x y n &&& 0xF000 = wordXY op 0 0 0 := by
  apply BitVec.eq_of_getLsbD_eq
  intro k hk
  have h : (0xF000#16).getLsbD k = decide (12 ≤ k) := by revert k; decide
  simp [wordXY, h]; grind

theorem mask_wordXYF (op x y n : Nibble) : wordXY op x y n &&& 0xF00F = wordXY op 0 0 n := by
  apply BitVec.eq_of_getLsbD_eq
  intro k hk
  have h : (0xF00F#16).getLsbD k = (decide (12 ≤ k) || decide (k < 4)) := by revert k; decide
  simp [wordXY, h]; grind

theorem cls : Statement .cls :=
  of_row ⟨"CLS", 0x00E0, 0xFFFF⟩ (by decide) rfl (by decide)
theorem ret : Statement .ret :=
  of_row ⟨"RET", 0x00EE, 0xFFFF⟩ (by decide) rfl (by decide)
theorem jp (nnn : Addr) : Statement (.jp nnn) :=
  of_row ⟨"JP_addr", 0x1000, 0xF000⟩ (by decide) rfl (by simp only [encode]; exact (mask_wordA ..).trans (by decide))
theorem call (nnn : Addr) : Statement (.call nnn) :=
  of_row ⟨"CALL_addr", 0x2000, 0xF000⟩ (by decide) rfl (by simp only [encode]; exact (mask_wordA ..).trans (by decide))
theorem seByte (x : Nibble) (kk : Byte) : Statement (.seByte x kk) :=
  of_row ⟨"SE_Vx__byte", 0x3000, 0xF000⟩ (by decide) rfl (by simp only [encode]; exact (mask_wordXK ..).trans (by decide))
theorem sneByte (x : Nibble) (kk : Byte) : Statement (.sneByte x kk) :=
  of_row ⟨"SNE_Vx__byte", 0x4000, 0xF000⟩ (by decide) rfl (by simp only [encode]; exact (mask_wordXK ..).trans (by decide))
theorem seReg (x y : Nibble) : Statement (.seReg x y) :=
  of_row ⟨"SE_Vx__Vy", 0x5000, 0xF00F⟩ (by decide) rfl (by simp only [encode]; exact (mask_wordXYF ..).trans (by decide))
theorem ldByte (x : Nibble) (kk : Byte) : Statement (.ldByte x kk) :=
  of_row ⟨"LD_Vx__byte", 0x6000, 0xF000⟩ (by decide) rfl (by simp only [encode]; exact (mask_wordXK ..).trans (by decide))
theorem addByte (x : Nibble) (kk : Byte) : Statement (.addByte x kk) :=
  of_row ⟨"ADD_Vx__byte", 0x7000, 0xF000⟩ (by decide) rfl (by simp only [encode]; exact (mask_wordXK ..).trans (by decide))
theorem ldReg (x y : Nibble) : Statement (.ldReg x y) :=
  of_row ⟨"LD_Vx__Vy", 0x8000, 0xF00F⟩ (by decide) rfl (by simp only [encode]; exact (mask_wordXYF ..).trans (by decide))
theorem orReg (x y : Nibble) : Statement (.orReg x y) :=
  of_row ⟨"OR_Vx__Vy", 0x8001, 0xF00F⟩ (by decide) rfl (by simp only [encode]; exact (mask_wordXYF ..).trans (by decide))
theorem andReg (x y : Nibble) : Statement (.andReg x y) :=
  of_row ⟨"AND_Vx__Vy", 0x8002, 0xF00F⟩ (by decide) rfl (by simp only [encode]; exact (mask_wordXYF ..).trans (by decide))
theorem xorReg (x y : Nibble) : Statement (.xorReg x y) :=
  of_row ⟨"XOR_Vx__Vy", 0x8003, 0xF00F⟩ (by decide) rfl (by simp only [encode]; exact (mask_wordXYF ..).trans (by decide))
theorem addReg (x y : Nibble) : Statement (.addReg x y) :=
  of_row ⟨"ADD_Vx__Vy", 0x8004, 0xF00F⟩ (by decide) rfl (by simp only [encode]; exact (mask_wordXYF ..).trans (by decide))
theorem subReg (x y : Nibble) : Statement (.subReg x y) :=
  of_row ⟨"SUB_Vx__Vy", 0x8005, 0xF00F⟩ (by decide) rfl (by simp only [encode]; exact (mask_wordXYF ..).trans (by decide))
theorem shr (x : Nibble) : Statement (.shr x) :=
  of_row ⟨"SHR_Vx", 0x8006, 0xF00F⟩ (by decide) rfl (by simp only [encode]; exact (mask_wordXYF ..).trans (by decide))
theorem subnReg (x y : Nibble) : Statement (.subnReg x y) :=
  of_row ⟨"SUBN_Vx__Vy", 0x8007, 0xF00F⟩ (by decide) rfl (by simp only [encode]; exact (mask_wordXYF ..).trans (by decide))
theorem shl (x : Nibble) : Statement (.shl x) :=
  of_row ⟨"SHL_Vx", 0x800E, 0xF00F⟩ (by decide) rfl (by simp only [encode]; exact (mask_wordXYF ..).trans (by decide))
theorem sneReg (x y : Nibble) : Statement (.sneReg x y) :=
  of_row ⟨"SNE_Vx__Vy", 0x9000, 0xF00F⟩ (by decide) rfl (by simp only [encode]; exact (mask_wordXYF ..).trans (by decide))
theorem ldI (nnn : Addr) : Statement (.ldI nnn) :=
  of_row ⟨"LD_I__addr", 0xA000, 0xF000⟩ (by decide) rfl (by simp only [encode]; exact (mask_wordA ..).trans (by decide))
theorem jpV0 (nnn : Addr) : Statement (.jpV0 nnn) :=
  of_row ⟨"JP_V0__addr", 0xB000, 0xF000⟩ (by decide) rfl (by simp only [encode]; exact (mask_wordA ..).trans (by decide))
theorem rnd (x : Nibble) (kk : Byte) : Statement (.rnd x kk) :=
  of_row ⟨"RND_Vx__byte", 0xC000, 0xF000⟩ (by decide) rfl (by simp only [encode]; exact (mask_wordXK ..).trans (by decide))
theorem drw (x y n : Nibble) : Statement (.drw x y n) :=
  of_row ⟨"DRW_Vx__Vy__nibble", 0xD000, 0xF000⟩ (by decide) rfl (by simp only [encode]; exact (mask_wordXYN ..).trans (by decide))
theorem skp (x : Nibble) : Statement (.skp x) :=
  of_row ⟨"SKP_Vx", 0xE09E, 0xF0FF⟩ (by decide) rfl (by simp only [encode]; exact (mask_wordXF ..).trans (by decide))
theorem sknp (x : Nibble) : Statement (.sknp x) :=
  of_row ⟨"SKNP_Vx", 0xE0A1, 0xF0FF⟩ (by decide) rfl (by simp only [encode]; exact (mask_wordXF ..).trans (by decide))
theorem ldVxDt (x : Nibble) : Statement (.ldVxDt x) :=
  of_row ⟨"LD_Vx__DT", 0xF007, 0xF0FF⟩ (by decide) rfl (by simp only [encode]; exact (mask_wordXF ..).trans (by decide))
theorem ldVxK (x : Nibble) : Statement (.ldVxK x) :=
  of_row ⟨"LD_Vx__K", 0xF00A, 0xF0FF⟩ (by decide) rfl (by simp only [encode]; exact (mask_wordXF ..).trans (by decide))
theorem ldDtVx (x : Nibble) : Statement (.ldDtVx x) :=
  of_row ⟨"LD_DT__Vx", 0xF015, 0xF0FF⟩ (by decide) rfl (by simp only [encode]; exact (mask_wordXF ..).trans (by decide))
theorem ldStVx (x : Nibble) : Statement (.ldStVx x) :=
  of_row ⟨"LD_ST__Vx", 0xF018, 0xF0FF⟩ (by decide) rfl (by simp only [encode]; exact (mask_wordXF ..).trans (by decide))
theorem addI (x : Nibble) : Statement (.addI x) :=
  of_row ⟨"ADD_I__Vx", 0xF01E, 0xF0FF⟩ (by decide) rfl (by simp only [encode]; exact (mask_wordXF ..).trans (by decide))
theorem ldF (x : Nibble) : Statement (.ldF x) :=
  of_row ⟨"LD_F__Vx", 0xF029, 0xF0FF⟩ (by decide) rfl (by simp only [encode]; exact (mask_wordXF ..).trans (by decide))
theorem ldB (x : Nibble) : Statement (.ldB x) :=
  of_row ⟨"LD_B__Vx", 0xF033, 0xF0FF⟩ (by decide) rfl (by simp only [encode]; exact (mask_wordXF ..).trans (by decide))
theorem stRegs (x : Nibble) : Statement (.stRegs x) :=
  of_row ⟨"LD__I___Vx", 0xF055, 0xF0FF⟩ (by decide) rfl (by simp only [encode]; exact (mask_wordXF ..).trans (by decide))
theorem ldRegs (x : Nibble) : Statement (.ldRegs x) :=
  of_row ⟨"LD_Vx___I", 0xF065, 0xF0FF⟩ (by decide) rfl (by simp only [encode]; exact (mask_wordXF ..).trans (by decide))

end Sys2Proof.Laws.MatchesRow
end

