-- ==== Sys2Proof/Laws/Run.lean ====
section
/-! SUPPORT. What each operation on a run does: a run that is over, a host action, a cycle, and events one after another. -/
namespace Sys2Proof.Machine

/-- A self-jump, read off its word: 1NNN at the address NNN. -/
theorem atSelfJump_iff {s : State} :
    atSelfJump s = true ↔ ∃ nnn : Addr, s.pc = nnn.setWidth 16 ∧ fetch s = .ok (wordA 0x1 nnn) := by
  constructor
  · intro h
    unfold atSelfJump at h
    split at h
    · cases h
    · rename_i w hf
      split at h
      · rename_i nnn hd
        refine ⟨nnn, (eq_of_beq h).symm, ?_⟩
        rcases decode_eq_ok hd with rfl | ⟨x, hx, _⟩ | ⟨x, hx, _⟩
        · exact hf
        · cases hx
        · cases hx
      · cases h
  · rintro ⟨nnn, hp, hf⟩
    simp [atSelfJump, hf, decode, addrOperand, hp]

/-- No host action moves pc or writes memory, so none makes or unmakes a fetched word or a self-jump. -/
@[simp] theorem fetch_hostAct (s : State) (a : HostAction) : fetch (hostAct s a) = fetch s := by cases a <;> rfl

@[simp] theorem pc_hostAct (s : State) (a : HostAction) : (hostAct s a).pc = s.pc := by cases a <;> rfl

@[simp] theorem atSelfJump_hostAct (s : State) (a : HostAction) : atSelfJump (hostAct s a) = atSelfJump s := by
  simp [atSelfJump]

/-- An error status is FAULTED with that status. -/
theorem runStatusAfter_error {st : Status} (t : State) (hs : st ≠ .success) (hw : st ≠ .waiting) :
    runStatusAfter t st = .faulted st := by
  cases st <;> first | rfl | exact absurd rfl hs | exact absurd rfl hw

theorem runEvent_of_over {r : Run} (h : r.status.isOver = true) (e : RunEvent) : runEvent r e = some r := by
  simp [runEvent, h]

theorem runEvent_host {r : Run} (h : r.status.isOver = false) (a : HostAction) :
    runEvent r (.host a) = some { r with state := hostAct r.state a } := by simp [runEvent, h]

theorem runEvent_cycle {r : Run} {st : Status} {t : State} (h : r.status.isOver = false) (hc : cycle r.state = some (st, t)) :
    runEvent r .cycle = some { status := runStatusAfter t st, state := t } := by simp [runEvent, h, hc]

@[simp] theorem runEvents_nil (r : Run) : runEvents r [] = some r := rfl

@[simp] theorem runEvents_cons (r : Run) (e : RunEvent) (es : List RunEvent) :
    runEvents r (e :: es) = (runEvent r e).bind fun r' => runEvents r' es := rfl

theorem runEvents_append (r : Run) (es fs : List RunEvent) :
    runEvents r (es ++ fs) = (runEvents r es).bind fun r' => runEvents r' fs := by
  induction es generalizing r with
  | nil => rfl
  | cons e es ih => cases h : runEvent r e <;> simp [h, ih]

end Sys2Proof.Machine
end

