-- ==== Sys2Proof/Laws/Safety.lean ====
section
/-! SUPPORT. The small lemmas of the terms claims are stated in: mapping an outcome, and what a frame says of each accessor. -/
namespace Sys2Proof.Machine

@[simp] theorem onNext_next (f : State → State) (t : State) : onNext f (.next t) = .next (f t) := rfl
@[simp] theorem onNext_fault (f : State → State) (e : Fault) : onNext f (.fault e) = .fault e := rfl
@[simp] theorem onNext_refused (f : State → State) (r : Refusal) : onNext f (.refused r) = .refused r := rfl

theorem onNext_ite (f : State → State) (c : Prop) [Decidable c] (a b : Result) :
    onNext f (if c then a else b) = if c then onNext f a else onNext f b := by split <;> rfl

section frame
variable {p : Place → Prop} {s t : State} (h : ChangesOnly p s t)
include h

theorem ChangesOnly.v_eq (x : Nibble) (hp : ¬ p (.v x)) : t.v x = s.v x := BitVec.eq_of_toNat_eq (h (.v x) hp)
theorem ChangesOnly.I_eq (hp : ¬ p .index) : t.I = s.I := BitVec.eq_of_toNat_eq (h .index hp)
theorem ChangesOnly.pc_eq (hp : ¬ p .pc) : t.pc = s.pc := BitVec.eq_of_toNat_eq (h .pc hp)
theorem ChangesOnly.stackEntry_eq (k : Nibble) (hp : ¬ p (.stack k)) : t.stackEntry k = s.stackEntry k :=
  BitVec.eq_of_toNat_eq (h (.stack k) hp)
theorem ChangesOnly.sp_eq (hp : ¬ p .sp) : t.sp = s.sp := BitVec.eq_of_toNat_eq (h .sp hp)
theorem ChangesOnly.dt_eq (hp : ¬ p .dt) : t.dt = s.dt := BitVec.eq_of_toNat_eq (h .dt hp)
theorem ChangesOnly.st_eq (hp : ¬ p .st) : t.st = s.st := BitVec.eq_of_toNat_eq (h .st hp)
theorem ChangesOnly.byteAt_eq (a : Nat) (hp : ¬ p (.byte a)) : t.byteAt a = s.byteAt a := BitVec.eq_of_toNat_eq (h (.byte a) hp)
theorem ChangesOnly.draws_eq (hp : ¬ p .draws) : t.draws = s.draws := h .draws hp

end frame
end Sys2Proof.Machine
end

