-- ==== Sys2Proof/Tests/Slice0.lean ====
section
/-! SUPPORT. The model's own tests: ill-formed words, one written-out word per instruction, at most two single steps per
instruction. Expected results are the spec's own vectors (spec/95_test_vectors.md, named in each comment) or worked out by hand
from the rule named. -/
namespace Sys2Proof.Tests
open Machine

/-- One cycle of the word w at s's pc: the next state, if there is one. -/
def run (s : State) (w : Word) : Option State :=
  match step (placeWord s w) with
  | .next t => some t
  | _ => none

/-- One cycle of the word w at s's pc: the error, if there is one. -/
def stop (s : State) (w : Word) : Option Fault :=
  match step (placeWord s w) with
  | .fault f => some f
  | _ => none

/-- The reset state at another pc. -/
def atPc (pc : Word) : State := State.reset.setPc pc

/-- The reset state with two registers set. -/
def regs (x : Nibble) (a : Byte) (y : Nibble) (b : Byte) : State := (State.reset.setV x a).setV y b

/-- The reset state with I set and some bytes in memory. -/
def bytes (i : Word) (a : Nat) (bs : List Byte) : State := (State.reset.setI i).setMem (Memory.store [] a bs)

/-! ## Ill-formed words (R78), one check per class of illegal word, and the legal neighbours -/

theorem test_illegal_family0 : wordLegal 0x0000 = false ∧ wordLegal 0x00E1 = false ∧ wordLegal 0x0123 = false ∧ wordLegal 0x00E0 = true := by decide
theorem test_illegal_family5 : wordLegal 0x5121 = false ∧ wordLegal 0x5120 = true := by decide
theorem test_illegal_family8 : wordLegal 0x8008 = false ∧ wordLegal 0x800D = false ∧ wordLegal 0x800F = false ∧ wordLegal 0x800E = true := by decide
theorem test_illegal_family9 : wordLegal 0x9011 = false ∧ wordLegal 0x9010 = true := by decide
theorem test_illegal_familyE : wordLegal 0xE09F = false ∧ wordLegal 0xE0A0 = false ∧ wordLegal 0xE09E = true := by decide
theorem test_illegal_familyF : wordLegal 0xF000 = false ∧ wordLegal 0xF00B = false ∧ wordLegal 0xF075 = false ∧ wordLegal 0xF065 = true := by decide
/-- V-D-1, V-D-5, V-D-6, V-D-8, V-D-9: the machine stops on them by name. -/
theorem test_illegal_stops : stop State.reset 0x0000 = some (.opcodeError 0x0000) ∧ stop State.reset 0x5121 = some (.opcodeError 0x5121) ∧
    stop State.reset 0x800D = some (.opcodeError 0x800D) ∧ stop State.reset 0xE0A0 = some (.opcodeError 0xE0A0) ∧
    stop State.reset 0xF075 = some (.opcodeError 0xF075) := by decide
theorem test_truncated : decodeBytes [0x60] = .error .truncated := by decide
/-- Every operand's type is its field's range, so the check on terms refuses none. -/
theorem test_no_ill_formed_term (i : Instr) : i.wellFormed = true := Laws.wellFormed_all i

/-! ## Decoding: words written out bit by bit from the encodings of R75 -/

theorem test_decode_cls : decode 0b0000000011100000 = .ok .cls := by decide
theorem test_decode_ret : decode 0b0000000011101110 = .ok .ret := by decide
theorem test_decode_jp : decode 0b0001001000000100 = .ok (.jp 0x204) := by decide
theorem test_decode_call : decode 0b0010001000010000 = .ok (.call 0x210) := by decide
theorem test_decode_seByte : decode 0b0011111100000001 = .ok (.seByte 0xF 0x01) := by decide
theorem test_decode_sneByte : decode 0b0100001100010010 = .ok (.sneByte 0x3 0x12) := by decide
theorem test_decode_seReg : decode 0b0101000100100000 = .ok (.seReg 0x1 0x2) := by decide
theorem test_decode_ldByte : decode 0b0110101001111011 = .ok (.ldByte 0xA 0x7B) := by decide
theorem test_decode_addByte : decode 0b0111000011111111 = .ok (.addByte 0x0 0xFF) := by decide
theorem test_decode_ldReg : decode 0b1000001000110000 = .ok (.ldReg 0x2 0x3) := by decide
theorem test_decode_orReg : decode 0b1000001000110001 = .ok (.orReg 0x2 0x3) := by decide
theorem test_decode_andReg : decode 0b1000001000110010 = .ok (.andReg 0x2 0x3) := by decide
theorem test_decode_xorReg : decode 0b1000001000110011 = .ok (.xorReg 0x2 0x3) := by decide
theorem test_decode_addReg : decode 0b1000001000110100 = .ok (.addReg 0x2 0x3) := by decide
theorem test_decode_subReg : decode 0b1000001000110101 = .ok (.subReg 0x2 0x3) := by decide
theorem test_decode_shr : decode 0b1000101010110110 = .ok (.shr 0xA) := by decide
theorem test_decode_subnReg : decode 0b1000001000110111 = .ok (.subnReg 0x2 0x3) := by decide
theorem test_decode_shl : decode 0b1000001000101110 = .ok (.shl 0x2) := by decide
theorem test_decode_sneReg : decode 0b1001000100100000 = .ok (.sneReg 0x1 0x2) := by decide
theorem test_decode_ldI : decode 0b1010001100000000 = .ok (.ldI 0x300) := by decide
theorem test_decode_jpV0 : decode 0b1011001000000110 = .ok (.jpV0 0x206) := by decide
theorem test_decode_rnd : decode 0b1100001100001111 = .ok (.rnd 0x3 0x0F) := by decide
theorem test_decode_drw : decode 0b1101000100100101 = .ok (.drw 0x1 0x2 0x5) := by decide
theorem test_decode_skp : decode 0b1110010110011110 = .ok (.skp 0x5) := by decide
theorem test_decode_sknp : decode 0b1110010110100001 = .ok (.sknp 0x5) := by decide
theorem test_decode_ldVxDt : decode 0b1111001100000111 = .ok (.ldVxDt 0x3) := by decide
theorem test_decode_ldVxK : decode 0b1111010100001010 = .ok (.ldVxK 0x5) := by decide
theorem test_decode_ldDtVx : decode 0b1111000000010101 = .ok (.ldDtVx 0x0) := by decide
theorem test_decode_ldStVx : decode 0b1111000100011000 = .ok (.ldStVx 0x1) := by decide
theorem test_decode_addI : decode 0b1111000000011110 = .ok (.addI 0x0) := by decide
theorem test_decode_ldF : decode 0b1111010000101001 = .ok (.ldF 0x4) := by decide
theorem test_decode_ldB : decode 0b1111101000110011 = .ok (.ldB 0xA) := by decide
theorem test_decode_stRegs : decode 0b1111000101010101 = .ok (.stRegs 0x1) := by decide
theorem test_decode_ldRegs : decode 0b1111001001100101 = .ok (.ldRegs 0x2) := by decide
/-- S-FETCH-1: the byte at the lower address is the high one. -/
theorem test_decode_bytes : decodeBytes [0x6A, 0x7B, 0x00] = .ok (.ldByte 0xA 0x7B, [0x00]) := by decide
theorem test_decode_table : decodeTableWord 16 0x6A7B = some (.ldByte 0xA 0x7B) ∧ decodeTableWord 16 0x0123 = none := by decide

/-! ## Reset, construction, fetch -/

/-- S-RESET-1: ROM 60 05. -/
theorem test_rom : (match loadRom (some [0x60, 0x05]) with
    | .next t => some (t.pc, t.byteAt 0x200, t.byteAt 0x201, t.byteAt 0x202, t.byteAt 0x032)
    | _ => none) = some (0x200, 0x60, 0x05, 0x00, 0xF0) := by decide
/-- S-ROM-1. -/
theorem test_rom_too_big : loadRom (some (List.replicate 3584 0)) = .fault .romTooBig := by
  rw [loadRom, if_pos (by rw [List.length_replicate]; decide)]; rfl
theorem test_rom_unreadable : loadRom none = .fault .romReadError := rfl
/-- V-F-1: the last word of memory is fetched. -/
theorem test_fetch_last : (run (atPc 0xFFE) 0x1234).map (·.pc) = some 0x234 := by decide
/-- V-F-2, V-F-3: no word past the end is. -/
theorem test_fetch_past_end : stop (atPc 0xFFF) 0x1234 = some (.addressOutOfRange 0xFFF) ∧
    stop (atPc 0x1000) 0x1234 = some (.addressOutOfRange 0x1000) := by decide
/-- V-F-4, V-F-5: an odd pc and a pc below 0x200 are fetched. -/
theorem test_fetch_odd : (run (atPc 0x201) 0x6007).map (fun t => (t.v 0, t.pc)) = some (0x07, 0x203) := by decide
theorem test_fetch_low : (run (atPc 0x100) 0x6101).map (fun t => (t.v 1, t.pc)) = some (0x01, 0x102) := by decide
theorem test_withFetchWord : (match step (State.reset.withFetchWord 16 0x6A7B) with
    | .next t => some (t.v 0xA) | _ => none) = some 0x7B := by decide

/-! ## Control transfer -/

/-- V-C-1. -/
theorem test_jp : (run (atPc 0x20A) 0x1204).map (·.pc) = some 0x204 := by decide
/-- V-C-6. -/
theorem test_call : (run (State.reset.setSp 14) 0x2400).map (fun t => (t.sp, t.stackEntry 15, t.pc)) = some (15, 0x200, 0x400) := by decide
/-- V-C-7, V-C-11: a full stack and a pointer outside 0..15. -/
theorem test_call_full : stop (State.reset.setSp 15) 0x2400 = some (.invalidStackPointer 15) ∧
    stop (State.reset.setSp 127) 0x2300 = some (.invalidStackPointer 127) := by decide
/-- V-C-5. -/
theorem test_ret : (run (((atPc 0x212).setSp 1).setStackEntry 1 0x204) 0x00EE).map (fun t => (t.sp, t.pc, t.stackEntry 1)) =
    some (0, 0x206, 0x204) := by decide
/-- V-C-8, V-C-12. -/
theorem test_ret_empty : stop State.reset 0x00EE = some (.invalidStackPointer 0) ∧
    stop (State.reset.setSp 0x80) 0x00EE = some (.invalidStackPointer 0x80) := by decide
/-- V-C-14: no 12-bit mask. -/
theorem test_jpV0_wide : (run (State.reset.setV 0 0xFF) 0xBFFF).map (·.pc) = some 0x10FE := by decide
/-- V-C-15: V0 is used whatever bits 11..8 hold. -/
theorem test_jpV0 : (run (regs 0 1 3 0x50) 0xB300).map (·.pc) = some 0x301 := by decide

/-! ## Skips -/

/-- S-SKIP-1 (a), (b). -/
theorem test_seByte : (run (State.reset.setV 1 0x22) 0x3122).map (·.pc) = some 0x204 ∧
    (run (State.reset.setV 1 0x22) 0x3123).map (·.pc) = some 0x202 := by decide
/-- V-D-12: a skip at the end of memory. -/
theorem test_seByte_end : (run (atPc 0xFFC) 0x3000).map (·.pc) = some 0x1000 := by decide
/-- V-S-2, V-S-3 (at pc 0x200). -/
theorem test_sneByte : (run (State.reset.setV 3 0x12) 0x4312).map (·.pc) = some 0x202 ∧
    (run (State.reset.setV 3 0x13) 0x4312).map (·.pc) = some 0x204 := by decide
/-- S-SKIP-1 (d). -/
theorem test_seReg : (run (regs 1 0x22 2 0x22) 0x5120).map (·.pc) = some 0x204 ∧
    (run (regs 0 0x04 1 0x33) 0x5010).map (·.pc) = some 0x202 := by decide
/-- S-SKIP-1 (e); the example of R144. -/
theorem test_sneReg : (run (regs 1 0x22 2 0x22) 0x9120).map (·.pc) = some 0x202 ∧
    (run (regs 0 0x04 1 0x33) 0x9010).map (·.pc) = some 0x204 := by decide
/-- V-S-12, V-S-7 (at pc 0x200). -/
theorem test_skp : (run ((State.reset.setV 5 0xF).setKey 0xF true) 0xE59E).map (·.pc) = some 0x204 ∧
    (run (State.reset.setV 5 0xA) 0xE59E).map (·.pc) = some 0x202 := by decide
/-- V-S-10. -/
theorem test_skp_invalid : stop (State.reset.setV 5 0x10) 0xE59E = some (.invalidKey 0x10) := by decide
/-- V-S-8, V-S-9 (at pc 0x200). -/
theorem test_sknp : (run ((State.reset.setV 5 0xA).setKey 0xA true) 0xE5A1).map (·.pc) = some 0x202 ∧
    (run (State.reset.setV 5 0xA) 0xE5A1).map (·.pc) = some 0x204 := by decide
/-- V-S-11. -/
theorem test_sknp_invalid : stop (State.reset.setV 5 0xFF) 0xE5A1 = some (.invalidKey 0xFF) := by decide

/-! ## Register loads and the ALU -/

/-- V-A-1. -/
theorem test_ldByte : (run State.reset 0x6FAB).map (fun t => (t.v 0xF, t.pc)) = some (0xAB, 0x202) := by decide
/-- V-A-2: no carry flag. -/
theorem test_addByte : (run (State.reset.setV 0 0xFF) 0x7001).map (fun t => (t.v 0, t.v 0xF)) = some (0x00, 0x00) := by decide
/-- V-A-4. -/
theorem test_ldReg : (run (State.reset.setV 1 0x33) 0x8010).map (·.v 0) = some 0x33 := by decide
/-- V-A-5: VF is not reset. -/
theorem test_orReg : (run ((regs 0 0x0F 1 0xF0).setV 0xF 0x55) 0x8011).map (fun t => (t.v 0, t.v 0xF)) = some (0xFF, 0x55) := by decide
/-- V-A-6. -/
theorem test_andReg : (run (regs 0 0x3C 1 0x0F) 0x8012).map (·.v 0) = some 0x0C := by decide
/-- V-A-7. -/
theorem test_xorReg : (run (regs 0 0x3C 1 0x0F) 0x8013).map (·.v 0) = some 0x33 := by decide
/-- V-A-10. -/
theorem test_addReg : (run (regs 0 0xFF 1 0xFF) 0x8014).map (fun t => (t.v 0, t.v 0xF)) = some (0xFE, 1) := by decide
/-- V-A-13, V-A-14: VF as destination and as operand. -/
theorem test_addReg_flag : (run (regs 0xF 0xFF 1 0x01) 0x8F14).map (·.v 0xF) = some 1 ∧
    (run (regs 0 0x10 0xF 0x05) 0x80F4).map (fun t => (t.v 0, t.v 0xF)) = some (0x15, 0) := by decide
/-- S-SUB-1. -/
theorem test_subReg : (run (regs 0 0x10 1 0x20) 0x8015).map (fun t => (t.v 0, t.v 0xF)) = some (0xF0, 0) := by decide
/-- V-A-15, V-A-17. -/
theorem test_subReg_flag : (run (regs 0 0x20 1 0x20) 0x8015).map (fun t => (t.v 0, t.v 0xF)) = some (0x00, 1) ∧
    (run (regs 0xF 0x30 1 0x20) 0x8F15).map (·.v 0xF) = some 1 := by decide
/-- S-SHR-1: Y is ignored. -/
theorem test_shr : (run (regs 2 0x15 3 0xFF) 0x8236).map (fun t => (t.v 2, t.v 0xF, t.v 3)) = some (0x0A, 1, 0xFF) := by decide
/-- V-A-19. -/
theorem test_shr_flag : (run (State.reset.setV 0xF 0x02) 0x8F06).map (·.v 0xF) = some 0 := by decide
/-- V-A-21. -/
theorem test_subnReg : (run (regs 0 0x20 1 0x10) 0x8017).map (fun t => (t.v 0, t.v 0xF)) = some (0xF0, 0) := by decide
/-- V-A-20. -/
theorem test_subnReg_flag : (run (regs 0 0x10 1 0x30) 0x8017).map (fun t => (t.v 0, t.v 0xF)) = some (0x20, 1) := by decide
/-- V-A-24. -/
theorem test_shl : (run (regs 0 0x7F 1 0xFF) 0x801E).map (fun t => (t.v 0, t.v 0xF, t.v 1)) = some (0xFE, 0, 0xFF) := by decide
/-- V-A-25. -/
theorem test_shl_flag : (run (State.reset.setV 0xF 0x81) 0x8FFE).map (·.v 0xF) = some 1 := by decide
/-- V-A-26, V-A-28: the draw is the free value. -/
theorem test_rnd : (run State.reset 0xC30F).map (·.v 3) = some (Config.randomByte 0 &&& 0x0F) := rfl
/-- V-A-27. -/
theorem test_rnd_zero : (run State.reset 0xC300).map (·.v 3) = some 0 :=
  (rfl : _ = some (Config.randomByte 0 &&& 0)).trans (by simp)

/-! ## Index register and memory -/

/-- V-M-1. -/
theorem test_ldI : (run State.reset 0xA300).map (·.I) = some 0x300 := by decide
/-- V-M-3, V-M-4. -/
theorem test_addI : (run ((State.reset.setI 0x0FFF).setV 0 1) 0xF01E).map (fun t => (t.I, t.v 0xF)) = some (0x1000, 0) ∧
    (run ((State.reset.setI 0xFFFF).setV 0 1) 0xF01E).map (·.I) = some 0 := by decide
/-- V-M-6. -/
theorem test_ldF : (run (State.reset.setV 4 0x0F) 0xF429).map (·.I) = some 0x04B := by decide
/-- V-M-7. -/
theorem test_ldF_invalid : stop (State.reset.setV 4 0x10) 0xF429 = some (.invalidDigit 0x10) := by decide
/-- V-M-9. -/
theorem test_ldB : (run (regs 0 0xFF 1 0 |>.setI 0x300) 0xF033).map (fun t => (t.mem.load 0x300 3, t.I)) =
    some ([2, 5, 5], 0x300) := by decide
/-- V-M-12. -/
theorem test_ldB_range : stop (State.reset.setI 0xFFE) 0xF033 = some (.addressOutOfRange 0xFFE) := by decide
/-- V-M-13. -/
theorem test_stRegs : (run (regs 0 0x04 1 0x33 |>.setI 0x400) 0xF155).map (fun t => (t.mem.load 0x400 3, t.I)) =
    some ([0x04, 0x33, 0x00], 0x400) := by decide
/-- V-M-15. -/
theorem test_stRegs_range : stop (State.reset.setI 0xFF1) 0xFF55 = some (.addressOutOfRange 0xFF1) := by decide
/-- V-M-16. -/
theorem test_ldRegs : (run (bytes 0x300 0x300 [1, 2, 3, 4]) 0xF265).map (fun t => (t.v 0, t.v 1, t.v 2, t.v 3, t.I)) =
    some (1, 2, 3, 0, 0x300) := by decide
/-- V-M-18, V-M-20. -/
theorem test_ldRegs_range : stop (State.reset.setI 0xFFF) 0xF165 = some (.addressOutOfRange 0xFFF) ∧
    stop (State.reset.setI 0x1000) 0xF065 = some (.addressOutOfRange 0x1000) := by decide
/-- A write of the reset contents removes the cell; canonical memories are equal data. -/
theorem test_memory_canonical : Memory.write (Memory.write [] 0x300 7) 0x300 0 = [] ∧
    Memory.write (Memory.write [] 0x301 7) 0x300 9 = [(0x300, 9), (0x301, 7)] := by decide

/-! ## Timers, keys, the host, the status -/

/-- V-T-1. -/
theorem test_ldVxDt : (run (State.reset.setDt 0x3C) 0xF307).map (fun t => (t.v 3, t.dt)) = some (0x3C, 0x3C) := by decide
/-- V-T-2. -/
theorem test_ldDtVx : (run (State.reset.setV 0 0x3C) 0xF015).map (fun t => (t.dt, t.st)) = some (0x3C, 0) := by decide
/-- V-T-3. -/
theorem test_ldStVx : (run (State.reset.setV 1 0x10) 0xF118).map (fun t => (t.st, t.dt)) = some (0x10, 0) := by decide
/-- V-K-3: the lowest of two keys. -/
theorem test_ldVxK : (run ((State.reset.setKey 3 true).setKey 9 true) 0xF50A).map (fun t => (t.v 5, t.pc)) = some (3, 0x202) := by decide
/-- V-K-2: Waiting, nothing changes. -/
theorem test_ldVxK_waits : (cycle (placeWord (atPc 0x230) 0xF50A)).map (fun r => (r.1, r.2.pc, r.2.v 5)) =
    some (.waiting, 0x230, 0) := by decide
/-- V-T-4, V-T-5. -/
theorem test_tick : (hostActs ((State.reset.setDt 2).setSt 1) [.tick]).dt = 1 ∧ (hostActs ((State.reset.setDt 2).setSt 1) [.tick]).st = 0 ∧
    (hostActs State.reset [.tick]).dt = 0 := by decide
/-- V-K-4: the host presses a key while the core waits. -/
theorem test_key_then_cycle : (run (hostActs (atPc 0x230) [.setKey 0xC true, .clearDrawFlag]) 0xF50A).map (fun t => (t.v 5, t.pc)) =
    some (0x0C, 0x232) := by decide
/-- R250, R251: an error's status, and the state as it was. -/
theorem test_error_status : (cycle (placeWord State.reset 0x00EE)).map (fun r => (r.1, r.2.pc, r.2.sp)) =
    some (.invalidStackPointer, 0x200, 0) := by decide

/-! ## Display -/

/-- V-G-12, V-G-13: draw_flag is set on a blank display too, VF is left alone. -/
theorem test_cls : (run ((State.reset.setV 0xF 7).setDisp (Display.toggle Display.blank 5 5)) 0x00E0).map
    (fun t => (t.pixel 5 5, t.drawFlag, t.v 0xF, t.pc)) = some (false, true, 7, 0x202) := by decide
/-- V-G-5: wrapping at both edges. -/
theorem test_drw_wraps : (run ((bytes 0x400 0x400 [0xFF, 0x81]).setV 0 60 |>.setV 1 31) 0xD012).map
    (fun t => ([t.pixel 60 31, t.pixel 3 31, t.pixel 4 31, t.pixel 60 0, t.pixel 3 0, t.pixel 61 0], t.v 0xF)) =
    some ([true, true, false, true, true, false], 0) := by decide
/-- V-G-3, V-G-4: a collision needs a set pixel under a set bit. -/
theorem test_drw_collision :
    (run ((bytes 0x400 0x400 [0x80]).setDisp (Display.toggle Display.blank 0 0)) 0xD011).map (fun t => (t.pixel 0 0, t.v 0xF)) =
      some (false, 1) ∧
    (run ((bytes 0x400 0x400 [0x40]).setDisp (Display.toggle Display.blank 0 0)) 0xD011).map (fun t => (t.pixel 0 0, t.pixel 1 0, t.v 0xF)) =
      some (true, true, 0) := by decide

/-! ## Witnesses: a concrete state and operands that meet the hypotheses of each statement that has any, named after it; where
a statement has several clauses, one for each, at a boundary of its range -/

/-- The state with the word w placed at pc. -/
def fetching (s : State) (w : Word) : State := placeWord s w

/-- DecoderIsTheOpcodeMap: a row, and a word of it and one not of it. -/
theorem witness_decoder_row : (⟨"SE_Vx__Vy", 0x5000, 0xF00F⟩ : OpcodeRow) ∈ opcodeMap ∧
    (0x5AB0 : Word) &&& 0xF00F = 0x5000 ∧ (0x5AB1 : Word) &&& 0xF00F ≠ 0x5000 := by decide
/-- OnlyTheShiftsIgnoreAField: two words of one instruction, different and equal. -/
theorem witness_ignored_field : decode 0x8AB6 = .ok (.shr 0xA) ∧ decode 0x8A06 = .ok (.shr 0xA) ∧ (0x8AB6 : Word) ≠ 0x8A06 ∧
    decode 0x8AB7 = .ok (.subnReg 0xA 0xB) := by decide
/-- StepRunsTheDecodedInstruction, at the last pc a fetch can have. -/
theorem witness_step : let s := fetching (atPc 0xFFE) 0x6FAB
    s.pc.toNat + 1 ≤ 0xFFF ∧ (Instr.ldByte 0xF 0xAB).wellFormed = true ∧
    decodeBytes [s.byteAt s.pc.toNat, s.byteAt (s.pc.toNat + 1)] = .ok (.ldByte 0xF 0xAB, []) := by decide
/-- FetchAndDecodeErrors, first clause: pc = 0xFFF and 0xFFFF. -/
theorem witness_fetch_error : 0xFFF < (atPc 0xFFF).pc.toNat + 1 ∧ 0xFFF < (atPc 0xFFFF).pc.toNat + 1 := by decide
/-- FetchAndDecodeErrors, second clause: an illegal word at the last address, and at an odd one below 0x200. -/
theorem witness_decode_error :
    (let s := fetching (atPc 0xFFE) 0x5121
     s.pc.toNat + 1 ≤ 0xFFF ∧ (0x5121 : Word).toNat = (s.byteAt s.pc.toNat).toNat * 256 + (s.byteAt (s.pc.toNat + 1)).toNat ∧
     decode 0x5121 = .error (.opcodeError 0x5121)) ∧
    (let s := fetching (atPc 0x101) 0xF075
     s.pc.toNat + 1 ≤ 0xFFF ∧ (0xF075 : Word).toNat = (s.byteAt s.pc.toNat).toNat * 256 + (s.byteAt (s.pc.toNat + 1)).toNat ∧
     decode 0xF075 = .error (.opcodeError 0xF075)) := by decide
/-- NoSuccessNoChange: an error, and Waiting. -/
theorem witness_no_success : (cycle State.reset).map (·.1) = some .opcodeError ∧
    (cycle (fetching State.reset 0xF50A)).map (·.1) = some .waiting := by decide
/-- JumpGoesToItsAddress: an address below 0xFFF, and a jump to its own address; SkipsOnRegisters: a last nibble other than 0. -/
theorem witness_jump : (0xFFE : Addr) ≠ 0xFFF ∧ (atPc 0xFFE).pc.toNat = (0xFFE : Addr).toNat ∧ (1 : Nibble) ≠ 0 := by decide
/-- CallPushesItsOwnAddress, k = 0 and 14; ReturnPopsAndAdvances, k = 1 and 15. -/
theorem witness_call_ret : (0 : Nibble) ≠ 15 ∧ State.reset.sp = (0 : Nibble).setWidth 8 ∧
    (14 : Nibble) ≠ 15 ∧ (State.reset.setSp 14).sp = (14 : Nibble).setWidth 8 ∧
    (1 : Nibble) ≠ 0 ∧ (State.reset.setSp 1).sp = (1 : Nibble).setWidth 8 ∧
    (15 : Nibble) ≠ 0 ∧ (State.reset.setSp 15).sp = (15 : Nibble).setWidth 8 := by decide
/-- StackPointerErrors: -1, -128, 16, 127 in the first clause, 0 in the second, 15 in the third. -/
theorem witness_sp : (State.reset.setSp 0xFF).sp.toInt < 0 ∧ (State.reset.setSp 0x80).sp.toInt < 0 ∧
    16 ≤ (State.reset.setSp 16).sp.toInt ∧ 16 ≤ (State.reset.setSp 127).sp.toInt ∧
    State.reset.sp = 0 ∧ (State.reset.setSp 15).sp = 15 := by decide
/-- ReturnResumesAfterTheCall: sp = 0 and 14. -/
theorem witness_resume : (0 ≤ State.reset.sp.toInt ∧ State.reset.sp.toInt < 15) ∧
    0 ≤ (State.reset.setSp 14).sp.toInt ∧ (State.reset.setSp 14).sp.toInt < 15 := by decide
/-- SelfJumpIsAFixedPoint. -/
theorem witness_self_jump : let s := fetching State.reset 0x1200
    s.pc = (0x200 : Addr).setWidth 16 ∧ fetch s = .ok (0x1#4 ++ (0x200 : Addr)) := by decide
/-- SkipsOnKeys and LoadFontPointsAtTheGlyph: the values 0 and 15; ValueAboveFErrors: 16 and 255. -/
theorem witness_digits : State.reset.v 3 = (0 : Nibble).setWidth 8 ∧ (State.reset.setV 3 15).v 3 = (15 : Nibble).setWidth 8 ∧
    0xF < ((State.reset.setV 3 16).v 3).toNat ∧ 0xF < ((State.reset.setV 3 255).v 3).toNat := by decide
/-- AddSetsCarry, SubtractionsSetNoBorrow, ShiftsSetTheBitShiftedOut: a destination other than VF. -/
theorem witness_destination : (0xE : Nibble) ≠ 0xF := by decide
/-- BcdStoresThreeDigits: the last I; StoreRegistersToMemory, LoadRegistersFromMemory and StoredRegistersLoadBack: the last I
for x = 15 and for x = 0. -/
theorem witness_access : (State.reset.setI 0xFFD).I.toNat + 2 ≤ 0xFFF ∧
    (State.reset.setI 0xFF0).I.toNat + (15 : Nibble).toNat ≤ 0xFFF ∧
    (State.reset.setI 0xFFF).I.toNat + (0 : Nibble).toNat ≤ 0xFFF := by decide
/-- AccessPastMemoryErrors, each clause at the first I it stops on. -/
theorem witness_access_past : 0xFFF < (State.reset.setI 0xFFE).I.toNat + 2 ∧
    0xFFF < (State.reset.setI 0xFF1).I.toNat + (15 : Nibble).toNat ∧
    0xFFF < (State.reset.setI 0x1000).I.toNat + (0 : Nibble).toNat ∧
    ((1 : Nibble) ≠ 0 ∧ 0xFFF < (State.reset.setI 0x1000).I.toNat + (1 : Nibble).toNat - 1) ∧
    (15 : Nibble) ≠ 0 ∧ 0xFFF < (State.reset.setI 0xFF2).I.toNat + (15 : Nibble).toNat - 1 := by decide
/-- FetchSeesTheStore: the last pair of a full store at the end of memory. -/
theorem witness_fetch_store : (State.reset.setI 0xFF0).I.toNat + (15 : Nibble).toNat ≤ 0xFFF ∧
    (14 : Nibble).toNat + 1 ≤ (15 : Nibble).toNat ∧ (0xFFE : Word).toNat = (State.reset.setI 0xFF0).I.toNat + (14 : Nibble).toNat := by
  decide
/-- CanonicalMemoryIsUnique: one memory written in two orders. -/
theorem witness_canonical : let m := Memory.write (Memory.write [] 0x300 7) 0x301 9
    let m' := Memory.write (Memory.write [] 0x301 9) 0x300 7
    m ≠ [] ∧ m.wf ∧ m'.wf ∧ ∀ a, m.read a = m'.read a := by
  refine ⟨by decide, by decide, by decide, fun a => ?_⟩
  simp only [Memory.read_write]
  split <;> split <;> first | rfl | omega
/-- KeyWaitTakesTheLowestKey: two keys pressed, and the last key alone. -/
theorem witness_key : (let s := (State.reset.setKey 3 true).setKey 9 true
    s.pressed 3 = true ∧ ∀ j : Nibble, j.toNat < (3 : Nibble).toNat → s.pressed j = false) ∧
    (let s := State.reset.setKey 15 true
     s.pressed 15 = true ∧ ∀ j : Nibble, j.toNat < (15 : Nibble).toNat → s.pressed j = false) := by decide
/-- KeyWaitWaits, both clauses. -/
theorem witness_wait : let s := fetching State.reset 0xF50A
    (∀ k, s.pressed k = false) ∧ fetch s = .ok (0xF#4 ++ (5 : Nibble) ++ 0x0A#8) := by decide
/-- DrawXorsTheSprite and DrawingTwiceRestores: no row with I outside memory, and 15 rows at the last I. -/
theorem witness_draw : ((0 : Nibble) = 0 ∨ (State.reset.setI 0xFFFF).I.toNat + (0 : Nibble).toNat - 1 ≤ 0xFFF) ∧
    ((15 : Nibble) = 0 ∨ (State.reset.setI 0xFF1).I.toNat + (15 : Nibble).toNat - 1 ≤ 0xFFF) ∧ (0xE : Nibble) ≠ 0xF := by decide
/-- DrawXorsTheSprite: the last pixel of a 2-row sprite at (60, 31), wrapped, and a pixel outside it. -/
theorem witness_draw_pixels : ((1 : Nat) < (2 : Nibble).toNat ∧ (7 : Nat) < 8 ∧ (3 : Fin 64).val = ((60 : Byte).toNat + 7) % 64 ∧
      (0 : Fin 32).val = ((31 : Byte).toNat + 1) % 32) ∧
    ∀ r < (2 : Nibble).toNat, ∀ c < 8, ¬ ((4 : Fin 64).val = ((60 : Byte).toNat + c) % 64 ∧ (0 : Fin 32).val = ((31 : Byte).toNat + r) % 32) := by
  decide
/-- DrawingTwiceRestores: the display is blank at reset. -/
theorem witness_blank (x : Fin 64) (y : Fin 32) : State.reset.pixel x y = false := pixel_blank x y
/-- StackEntriesBelongToCallAndReturn: a CALL changes entry 1, and some instruction is no RET. -/
theorem witness_stack_entry : (Instr.cls ≠ .ret) ∧ ∃ t, exec (.call 0x210) State.reset = .next t ∧ t.stackEntry 1 ≠ State.reset.stackEntry 1 :=
  ⟨by decide, _, rfl, by decide⟩
/-- OnlyTheNamedInstructionsWrite and OnlyTheListedInstructionsWriteVF, each clause. -/
theorem witness_write_index : ∃ t, exec (.ldI 0x300) State.reset = .next t ∧ t.I ≠ State.reset.I := ⟨_, rfl, by decide⟩
theorem witness_write_sp : ∃ t, exec (.call 0x210) State.reset = .next t ∧ t.sp ≠ State.reset.sp := ⟨_, rfl, by decide⟩
theorem witness_write_dt : ∃ t, exec (.ldDtVx 0) (State.reset.setV 0 1) = .next t ∧ t.dt ≠ (State.reset.setV 0 1).dt := ⟨_, rfl, by decide⟩
theorem witness_write_st : ∃ t, exec (.ldStVx 0) (State.reset.setV 0 1) = .next t ∧ t.st ≠ (State.reset.setV 0 1).st := ⟨_, rfl, by decide⟩
theorem witness_write_pixel : ∃ t, exec (.drw 0 0 1) State.reset = .next t ∧ t.pixel 0 0 ≠ State.reset.pixel 0 0 ∧
    State.reset.drawFlag ≠ t.drawFlag := ⟨_, rfl, by decide, by decide⟩
theorem witness_write_byte : ∃ t, exec (.stRegs 0) ((State.reset.setV 0 1).setI 0xFFF) = .next t ∧
    t.byteAt 0xFFF ≠ ((State.reset.setV 0 1).setI 0xFFF).byteAt 0xFFF := ⟨_, rfl, by decide⟩
theorem witness_keeps_flag : ∃ t, exec (.jp 0) (State.reset.setDrawFlag true) = .next t ∧ (State.reset.setDrawFlag true).drawFlag = true :=
  ⟨_, rfl, rfl⟩
theorem witness_write_draws : ∃ t, exec (.rnd 0 0) State.reset = .next t ∧ t.draws ≠ State.reset.draws := ⟨_, rfl, by decide⟩
theorem witness_write_vf : ∃ t, exec (.addReg 0 0) (State.reset.setV 0 0x80) = .next t ∧ t.v 0xF ≠ (State.reset.setV 0 0x80).v 0xF :=
  ⟨_, rfl, by decide⟩
/-- SoundTimerAndDrawFlagAreNotRead, each clause. -/
theorem witness_not_read : (∃ x, Instr.ldStVx 2 = .ldStVx x) ∧ (∀ x, Instr.ret ≠ .ldStVx x) ∧
    (Instr.drw 1 2 3 = .cls ∨ ∃ vx vy n, Instr.drw 1 2 3 = .drw vx vy n) ∧ Instr.ret ≠ .cls ∧
    ∀ vx vy n, Instr.ret ≠ .drw vx vy n := by
  refine ⟨⟨_, rfl⟩, ?_, .inr ⟨_, _, _, rfl⟩, by decide, ?_⟩ <;> intros <;> simp
/-- StepKeepsTheInvariant and HostKeepsTheInvariant: the reset state with a program's first word. -/
theorem witness_invariant : Invariant (fetching State.reset 0x2210) ∧ ∃ t, step (fetching State.reset 0x2210) = .next t :=
  ⟨⟨by decide, by decide, by decide⟩, _, rfl⟩
/-- EveryRunKeepsTheInvariant: a ROM, a key press, a tick and one cycle. -/
theorem witness_run : ∃ s, Reachable s ∧ s.sp = 1 := by
  obtain ⟨s, hs⟩ : ∃ s, loadRom (some [0x22, 0x10]) = .next s := ⟨_, rfl⟩
  have h := (Reachable.load hs).host (.setKey 3 true) |>.host .tick
  obtain rfl := next_inj.1 (hs.symm.trans (rfl : _ = Host.Outcome.next _))
  exact ⟨_, Reachable.cycle h rfl, rfl⟩
/-- RomIsCopiedVerbatim: 3584 bytes are too many, 3583 are not. -/
theorem witness_rom : 3583 < (List.replicate 3584 (0xAA : Byte)).length ∧ (List.replicate 3583 (0xAA : Byte)).length ≤ 3583 :=
  ⟨by rw [List.length_replicate]; norm_num, by rw [List.length_replicate]⟩
/-- RomIsCopiedVerbatim: the clauses over addresses, for a ROM of two bytes. -/
theorem witness_rom_bytes : 1 < ([0x22, 0x10] : List Byte).length ∧ 0x200 + ([0x22, 0x10] : List Byte).length ≤ 0x202 := by decide
/-- ResetValues: the first and last font byte, and an address beyond the font. -/
theorem witness_reset : (0 : Nat) < 80 ∧ (79 : Nat) < 80 ∧ (fontBase + 80 ≤ 0x50) := by decide

/-! ## Runs (R295, R296) -/

/-- V-C-2's word at its own address is an END; a jump elsewhere, and pc = 0xFFF, are none. -/
theorem test_self_jump : atSelfJump (placeWord (atPc 0x300) 0x1300) = true ∧ atSelfJump (placeWord (atPc 0x300) 0x1302) = false ∧
    atSelfJump (atPc 0xFFF) = false := by decide
/-- RunStatusSaysWhereARunStands, each status: END at the start, and when a cycle first leads there; FAULTED, also past later
events; WAITING, also after a key press until the next cycle. -/
theorem witness_run_status :
    (runStart (fetching State.reset 0x1200)).status = .ended ∧
    (runEvents (runStart (bytes 0 0x200 [0x12, 0x04, 0x00, 0x00, 0x12, 0x04])) [.cycle]).map (·.status) = some .ended ∧
    (runEvents (runStart (fetching State.reset 0x00EE)) [.cycle, .host .tick, .cycle]).map (·.status) =
      some (.faulted .invalidStackPointer) ∧
    (runEvents (runStart (fetching State.reset 0xF50A)) [.cycle, .host (.setKey 3 true)]).map (·.status) = some .waiting := by
  decide
/-- RunEndsAtTheFirstErrorOrSelfJump: a run that is over, and runs that are not at each outcome of a cycle. -/
theorem witness_run_over : (runStart (fetching State.reset 0x1200)).status.isOver = true := by decide
theorem witness_run_error : (runStart State.reset).status.isOver = false ∧ (cycle State.reset).map (·.1) = some .opcodeError := by
  decide
theorem witness_run_self_jump : let r := runStart (bytes 0 0x200 [0x12, 0x04, 0x00, 0x00, 0x12, 0x04])
    r.status.isOver = false ∧ (cycle r.state).map (fun c => (c.1, atSelfJump c.2)) = some (.success, true) := by decide
theorem witness_run_on : let r := runStart (fetching State.reset 0x6FAB)
    r.status.isOver = false ∧ (cycle r.state).map (fun c => (c.1, atSelfJump c.2)) = some (.success, false) := by decide
theorem witness_run_waiting : let r := runStart (fetching State.reset 0xF50A)
    r.status.isOver = false ∧ (cycle r.state).map (·.1) = some .waiting := by decide

end Sys2Proof.Tests
end

section
/-! PROOF. Who may touch the call stack (spec/10_state.md R27). Every instruction but RET and CALL commutes with replacing the
whole stack, so it neither reads an entry nor writes one. -/
namespace Sys2Proof.Machine

/-- All 16 stack entries at once: the update that the statement of O48 writes out. -/
def State.setStack (s : State) (entries : Vector Word 16) : State := { s with stack := entries }

@[simp] theorem stack_setStack (s : State) (entries : Vector Word 16) : (s.setStack entries).stack = entries := rfl

@[simp] theorem setStack_self (s : State) : s.setStack s.stack = s := rfl

@[simp] theorem setStack_setStack (s : State) (entries blank : Vector Word 16) :
    (s.setStack entries).setStack blank = s.setStack blank := rfl

theorem stackEntry_congr {s t : State} (h : t.stack = s.stack) (k : Nibble) : t.stackEntry k = s.stackEntry k := by
  simp [State.stackEntry, h]

theorem onNext_onNext (f g : State → State) (r : Result) : onNext f (onNext g r) = onNext (fun t => f (g t)) r := by
  cases r <;> rfl

/-- An instruction other than RET and CALL carries the stack along and takes no notice of it. -/
theorem exec_setStack {i : Instr} (hret : i ≠ .ret) (hcall : ∀ nnn, i ≠ .call nnn) (s : State) (entries : Vector Word 16) :
    exec i (s.setStack entries) = onNext (·.setStack entries) (exec i s) := by
  cases i with
  | ret => exact absurd rfl hret
  | call nnn => exact absurd rfl (hcall nnn)
  -- The instructions that can stop: the check reads no entry, and each branch carries the stack along.
  | skp | sknp => simp only [exec, execSkp, execSknp, skipOnKey, onNext_ite]; rfl
  | ldF | ldB | stRegs | ldRegs => simp only [exec, execLdF, execLdB, execStRegs, execLdRegs, onNext_ite]; rfl
  | drw => simp only [exec, execDrw, onNext_ite]; rfl
  -- The key wait: the keys pressed are those of s.
  | ldVxK x =>
    have hkey : lowestKey (s.setStack entries) = lowestKey s := rfl
    simp only [exec, execLdVxK, hkey]
    cases lowestKey s <;> rfl
  -- Every other instruction has one outcome, its writes beside the stack.
  | _ => rfl

/-- RET pops an entry by moving sp alone (R27). -/
theorem stack_of_exec_ret {s t : State} (h : exec .ret s = .next t) : t.stack = s.stack := by
  change execRet s = .next t at h
  unfold execRet at h
  split at h
  · cases h
  · split at h
    · cases h
    · cases h; rfl

/-- An instruction other than CALL leaves the stack as it was. -/
theorem stack_of_exec {i : Instr} {s t : State} (hcall : ∀ nnn, i ≠ .call nnn) (h : exec i s = .next t) :
    t.stack = s.stack := by
  by_cases hret : i = .ret
  · subst hret; exact stack_of_exec_ret h
  · have hcomm := exec_setStack hret hcall s s.stack
    rw [setStack_self, h, onNext_next, next_inj] at hcomm
    rw [hcomm, stack_setStack]

/-- CALL reads no entry: apart from the stack, it answers the same with any other entries. -/
theorem exec_call_setStack (nnn : Addr) (s : State) (entries blank : Vector Word 16) :
    onNext (·.setStack blank) (exec (.call nnn) (s.setStack entries)) = onNext (·.setStack blank) (exec (.call nnn) s) := by
  change onNext _ (execCall nnn _) = onNext _ (execCall nnn _)
  simp only [execCall, onNext_ite]
  rfl

/-- Every instruction but RET answers the same with any other entries, apart from the stack. -/
theorem exec_ignores_stack {i : Instr} (hret : i ≠ .ret) (s : State) (entries blank : Vector Word 16) :
    onNext (·.setStack blank) (exec i (s.setStack entries)) = onNext (·.setStack blank) (exec i s) := by
  by_cases hcall : ∃ nnn, i = .call nnn
  · obtain ⟨nnn, rfl⟩ := hcall
    exact exec_call_setStack nnn s entries blank
  · rw [exec_setStack hret (not_exists.1 hcall), onNext_onNext]
    simp only [setStack_setStack]

/-- Settles O48: an instruction that is no CALL keeps the stack, and one that is no RET takes no notice of its entries. -/
theorem stackEntriesBelongToCallAndReturn : Obligations.StackEntriesBelongToCallAndReturn := by
  unfold Obligations.StackEntriesBelongToCallAndReturn
  constructor
  · intro i s t k hnext hchanged
    by_contra hcall
    exact hchanged (stackEntry_congr (stack_of_exec (not_exists.1 hcall) hnext) k)
  · intro i s entries blank hret
    exact exec_ignores_stack hret s entries blank

end Sys2Proof.Machine
end

section
/-! PROOF. The decoder against the opcode map (spec/30_encoding.md R74 to R76). From a row to the decoder: the
NAME of what a word decodes to depends on the word's selector fields alone, a row's mask keeps all of these, so a word of a
row has the name the row's own pattern has. From the decoder to a row: what decodes was encoded (decode_eq_ok), and an
instruction's word matches the row of its name (Laws.MatchesRow). -/
namespace Sys2Proof.Laws.MatchesRow

/-- Every instruction's word matches the row of its name: the statements per instruction, collected. -/
theorem all (i : Instr) : Statement i := by
  cases i with
  | cls => exact cls
  | ret => exact ret
  | jp => exact jp _
  | call => exact call _
  | seByte => exact seByte ..
  | sneByte => exact sneByte ..
  | seReg => exact seReg ..
  | ldByte => exact ldByte ..
  | addByte => exact addByte ..
  | ldReg => exact ldReg ..
  | orReg => exact orReg ..
  | andReg => exact andReg ..
  | xorReg => exact xorReg ..
  | addReg => exact addReg ..
  | subReg => exact subReg ..
  | shr => exact shr _
  | subnReg => exact subnReg ..
  | shl => exact shl _
  | sneReg => exact sneReg ..
  | ldI => exact ldI _
  | jpV0 => exact jpV0 _
  | rnd => exact rnd ..
  | drw => exact drw ..
  | skp => exact skp _
  | sknp => exact sknp _
  | ldVxDt => exact ldVxDt _
  | ldVxK => exact ldVxK _
  | ldDtVx => exact ldDtVx _
  | ldStVx => exact ldStVx _
  | addI => exact addI _
  | ldF => exact ldF _
  | ldB => exact ldB _
  | stRegs => exact stRegs _
  | ldRegs => exact ldRegs _

end Sys2Proof.Laws.MatchesRow

namespace Sys2Proof

/-! ## The selector fields -/

theorem fieldOp_and (w m : Word) : fieldOp (w &&& m) = fieldOp w &&& fieldOp m := BitVec.extractLsb'_and
theorem fieldN_and (w m : Word) : fieldN (w &&& m) = fieldN w &&& fieldN m := BitVec.extractLsb'_and
theorem fieldKK_and (w m : Word) : fieldKK (w &&& m) = fieldKK w &&& fieldKK m := BitVec.extractLsb'_and

/-- Two words agree in the family nibble and in the family's sub-select field (R74, R75). -/
structure SameSelectors (w p : Word) : Prop where
  op : fieldOp w = fieldOp p
  whole : fieldOp p = 0x0 → w = p
  n : fieldOp p ∈ [0x5, 0x8, 0x9] → fieldN w = fieldN p
  kk : fieldOp p ∈ [0xE, 0xF] → fieldKK w = fieldKK p

/-- The mask of a row keeps the selector fields of the row's family whole. -/
theorem mask_keeps_selectors : ∀ row ∈ opcodeMap,
    fieldOp row.mask = 0xF ∧ (fieldOp row.pattern = 0x0 → row.mask = 0xFFFF) ∧
    (fieldOp row.pattern ∈ [0x5, 0x8, 0x9] → fieldN row.mask = 0xF) ∧
    (fieldOp row.pattern ∈ [0xE, 0xF] → fieldKK row.mask = 0xFF) := by
  decide

theorem sameSelectors_of_row {w : Word} {row : OpcodeRow} (hrow : row ∈ opcodeMap) (h : w &&& row.mask = row.pattern) :
    SameSelectors w row.pattern := by
  obtain ⟨hop, hwhole, hn, hkk⟩ := mask_keeps_selectors row hrow
  refine ⟨?_, fun hf => ?_, fun hf => ?_, fun hf => ?_⟩
  · rw [← h, fieldOp_and, hop]; exact BitVec.and_allOnes.symm
  · rw [← h, hwhole hf]; exact BitVec.and_allOnes.symm
  · rw [← h, fieldN_and, hn hf]; exact BitVec.and_allOnes.symm
  · rw [← h, fieldKK_and, hkk hf]; exact BitVec.and_allOnes.symm

/-! ## The name of what a word decodes to -/

/-- The name of the instruction a decoder answers, if it answers one. -/
def okName : Except DecodeError Instr → Option String
  | .ok i => some i.mnemonic
  | .error _ => none

theorem okName_eq_some {r : Except DecodeError Instr} {name : String} :
    okName r = some name ↔ ∃ i, r = .ok i ∧ i.mnemonic = name := by
  cases r <;> simp [okName]

theorem okName_decodeFamily8 {w p : Word} (h : fieldN w = fieldN p) :
    okName (decodeFamily8 w) = okName (decodeFamily8 p) := by
  unfold decodeFamily8
  rw [h]
  split <;> rfl

theorem okName_decodeFamilyE {w p : Word} (h : fieldKK w = fieldKK p) :
    okName (decodeFamilyE w) = okName (decodeFamilyE p) := by
  unfold decodeFamilyE
  rw [h]
  split <;> rfl

theorem okName_decodeFamilyF {w p : Word} (h : fieldKK w = fieldKK p) :
    okName (decodeFamilyF w) = okName (decodeFamilyF p) := by
  unfold decodeFamilyF
  rw [h]
  split <;> rfl

/-- The operand fields have no say in which instruction a word is (R74, R75). -/
theorem okName_decode_congr {w p : Word} (h : SameSelectors w p) : okName (decode w) = okName (decode p) := by
  obtain ⟨hop, hwhole, hn, hkk⟩ := h
  have hcase (k : Nibble) (hk : (fieldOp p).toNat = k.toNat) : fieldOp p = k := BitVec.eq_of_toNat_eq hk
  unfold decode
  rw [hop]
  split
  case h_1 hf => rw [hwhole (hcase 0x0 hf)]
  case h_6 hf => rw [hn (by simp [hcase 0x5 hf])]; split <;> rfl
  case h_9 hf => exact okName_decodeFamily8 (hn (by simp [hcase 0x8 hf]))
  case h_10 hf => rw [hn (by simp [hcase 0x9 hf])]; split <;> rfl
  case h_15 hf => exact okName_decodeFamilyE (hkk (by simp [hcase 0xE hf]))
  case h_16 hf => exact okName_decodeFamilyF (hkk (by simp [hcase 0xF hf]))
  -- The other families have no sub-select field.
  all_goals rfl

/-! ## The decoder and the rows -/

/-- The pattern of each row, a word with zeros for operands, decodes to an instruction of the row's name. -/
theorem okName_decode_pattern : ∀ row ∈ opcodeMap, okName (decode row.pattern) = some row.mnemonic := by
  decide

/-- No two rows of the map carry one name. -/
theorem row_eq_of_mnemonic_eq : ∀ row ∈ opcodeMap, ∀ row' ∈ opcodeMap, row.mnemonic = row'.mnemonic → row = row' := by
  decide

/-- A word that decodes matches the row of its instruction's name. In the two shifts the mask drops the ignored Y field. -/
theorem row_of_decode {w : Word} {i : Instr} (h : decode w = .ok i) :
    ∃ row ∈ opcodeMap, row.mnemonic = i.mnemonic ∧ w &&& row.mask = row.pattern := by
  rcases decode_eq_ok h with rfl | ⟨x, rfl, hw⟩ | ⟨x, rfl, hw⟩
  · obtain ⟨row, hrow, hname, hmatch⟩ := Laws.MatchesRow.all i
    exact ⟨row, hrow, hname, eq_of_beq hmatch⟩
  · refine ⟨⟨"SHR_Vx", 0x8006, 0xF00F⟩, by decide, rfl, ?_⟩
    rw [hw]; exact (Laws.MatchesRow.mask_wordXYF ..).trans (by decide)
  · refine ⟨⟨"SHL_Vx", 0x800E, 0xF00F⟩, by decide, rfl, ?_⟩
    rw [hw]; exact (Laws.MatchesRow.mask_wordXYF ..).trans (by decide)

/-- Settles O3: a row's word has the row's selector fields, hence its name; a decoded word matches the one row of its name. -/
theorem decoderIsTheOpcodeMap : Obligations.DecoderIsTheOpcodeMap := by
  unfold Obligations.DecoderIsTheOpcodeMap
  intro w row hrow
  constructor
  · intro hmatch
    rw [← okName_eq_some, okName_decode_congr (sameSelectors_of_row hrow hmatch)]
    exact okName_decode_pattern row hrow
  · rintro ⟨i, hdecode, hname⟩
    obtain ⟨row', hrow', hname', hmatch⟩ := row_of_decode hdecode
    obtain rfl := row_eq_of_mnemonic_eq row' hrow' row hrow (hname'.trans hname)
    exact hmatch

/-! ## The ignored field -/

/-- A word that decodes to i has the family, X and N fields of i's own word, in the two shifts too. -/
theorem fields_of_decode {w : Word} {i : Instr} (h : decode w = .ok i) :
    fieldOp w = fieldOp (encode i) ∧ fieldX w = fieldX (encode i) ∧ fieldN w = fieldN (encode i) := by
  rcases decode_eq_ok h with rfl | ⟨x, rfl, hw⟩ | ⟨x, rfl, hw⟩
  · exact ⟨rfl, rfl, rfl⟩
  · rw [hw]; simp [encode]
  · rw [hw]; simp [encode]

/-- Apart from the two shifts an instruction has one word. -/
theorem eq_encode_of_decode {w : Word} {i : Instr} (h : decode w = .ok i)
    (hshift : ¬((∃ x, i = .shr x) ∨ ∃ x, i = .shl x)) : w = encode i := by
  rcases decode_eq_ok h with hw | ⟨x, hi, _⟩ | ⟨x, hi, _⟩
  · exact hw.symm
  · exact absurd (.inl ⟨x, hi⟩) hshift
  · exact absurd (.inr ⟨x, hi⟩) hshift

/-- Settles O4: two words of one instruction both agree with its own word, wholly unless it is a shift. -/
theorem onlyTheShiftsIgnoreAField : Obligations.OnlyTheShiftsIgnoreAField := by
  unfold Obligations.OnlyTheShiftsIgnoreAField
  constructor
  · intro x y
    constructor <;> simp [decode, decodeFamily8]
  · intro w w' i hw hw'
    by_cases hshift : (∃ x, i = .shr x) ∨ ∃ x, i = .shl x
    · obtain ⟨hop, hx, hn⟩ := fields_of_decode hw
      obtain ⟨hop', hx', hn'⟩ := fields_of_decode hw'
      exact .inr ⟨hshift, hop.trans hop'.symm, hx.trans hx'.symm, hn.trans hn'.symm⟩
    · exact .inl ((eq_encode_of_decode hw hshift).trans (eq_encode_of_decode hw' hshift).symm)

end Sys2Proof
end

section
/-! PROOF. The conditional skips (spec/42_skips.md R140 to R142). Every skip ends in skipIf, which moves pc alone; a skip
instruction is then known from its condition. -/
namespace Sys2Proof.Machine

/-- A write of pc alone touches no other place. -/
theorem changesOnly_setPc (s : State) (w : Word) : ChangesOnly (· ∈ [.pc]) s (s.setPc w) := by
  intro q hq
  cases q with
  | pc => exact absurd (List.mem_singleton_self _) hq
  -- Every other place is read through a field that setPc leaves alone.
  | _ => rfl

/-- The skip mechanism (R140): it completes in every state, adds 4 to pc if its condition holds and 2 if not, and changes
nothing else. -/
theorem skipIf_spec (s : State) {c : Bool} {P : Prop} [Decidable P] (hc : c = true ↔ P) :
    ∃ t, skipIf s c = .next t ∧ t.pc = s.pc + (if P then 4 else 2) ∧ ChangesOnly (· ∈ [.pc]) s t := by
  refine ⟨_, skipIf_eq s c, ?_, changesOnly_setPc s _⟩
  simp only [pc_setPc, hc, apply_ite (s.pc + ·)]

theorem exec_seByte (x : Nibble) (kk : Byte) (s : State) : exec (.seByte x kk) s = skipIf s (s.v x == kk) := rfl

theorem exec_sneByte (x : Nibble) (kk : Byte) (s : State) : exec (.sneByte x kk) s = skipIf s (s.v x != kk) := rfl

theorem decode_seByte (x : Nibble) (kk : Byte) : decode (wordXK 0x3 x kk) = .ok (.seByte x kk) := by
  simp [decode]

theorem decode_sneByte (x : Nibble) (kk : Byte) : decode (wordXK 0x4 x kk) = .ok (.sneByte x kk) := by
  simp [decode]

/-- Settles O19: SE skips on Vx = KK and SNE on its negation. -/
theorem skipsOnByte : Obligations.SkipsOnByte := by
  unfold Obligations.SkipsOnByte
  intro x kk s
  refine ⟨decode_seByte x kk, decode_sneByte x kk, ?_, ?_⟩
  · have hcond : (s.v x == kk) = true ↔ (s.v x).toNat = kk.toNat := by rw [beq_iff_eq, BitVec.toNat_inj]
    rw [exec_seByte]
    exact skipIf_spec s hcond
  · have hcond : (s.v x != kk) = true ↔ ¬(s.v x).toNat = kk.toNat := by rw [bne_iff_ne, ne_eq, BitVec.toNat_inj]
    rw [exec_sneByte]
    simpa only [ite_not] using skipIf_spec s hcond

end Sys2Proof.Machine
end

section
/-! PROOF. Register loads and the ALU without a flag (spec/43_register_alu.md R162 to R164, R166, R167). Each of these
instructions ends in writeReg, which writes its destination and pc and nothing else: writeReg_spec says so once. What is left of
an instruction is its word and the value it writes. -/
namespace Sys2Proof.Machine

/-! ## Frames -/

theorem ChangesOnly.mono {p q : Place → Prop} {s t : State} (h : ChangesOnly p s t) (hpq : ∀ r, p r → q r) :
    ChangesOnly q s t :=
  fun r hr => h r (fun hp => hr (hpq r hp))

theorem ChangesOnly.trans {p : Place → Prop} {s t u : State} (hst : ChangesOnly p s t) (htu : ChangesOnly p t u) :
    ChangesOnly p s u :=
  fun r hr => (htu r hr).trans (hst r hr)

/-- A write of one register touches no other place, no other register included. -/
theorem changesOnly_setV (s : State) (x : Nibble) (b : Byte) : ChangesOnly (· ∈ [.v x]) s (s.setV x b) := by
  intro q hq
  cases q with
  | v i =>
    have hne : i ≠ x := by rintro rfl; exact hq (List.mem_singleton_self _)
    simp only [Place.get, v_setV, if_neg hne]
  -- Every other place is read through a field that setV leaves alone.
  | _ => rfl

/-- The ALU result without a flag (R160): it completes in every state, writes Vx, adds 2 to pc, and changes nothing else. -/
theorem writeReg_spec (s : State) (x : Nibble) (b : Byte) :
    ∃ t, writeReg s x b = .next t ∧ t.v x = b ∧ t.pc = s.pc + 2 ∧ ChangesOnly (· ∈ [.v x, .pc]) s t := by
  have hreg : ChangesOnly (· ∈ [.v x, .pc]) s (s.setV x b) := (changesOnly_setV s x b).mono (by simp)
  have hpc : ChangesOnly (· ∈ [.v x, .pc]) (s.setV x b) ((s.setV x b).setPc (s.pc + 2)) :=
    (changesOnly_setPc _ _).mono (by simp)
  exact ⟨_, writeReg_eq s x b, by simp, pc_setPc _ _, hreg.trans hpc⟩

/-! ## The words and the meanings -/

theorem decode_ldByte (x : Nibble) (kk : Byte) : decode (wordXK 0x6 x kk) = .ok (.ldByte x kk) := by
  simp [decode]

theorem decode_addByte (x : Nibble) (kk : Byte) : decode (wordXK 0x7 x kk) = .ok (.addByte x kk) := by
  simp [decode]

theorem decode_ldReg (x y : Nibble) : decode (wordXY 0x8 x y 0x0) = .ok (.ldReg x y) := by
  simp [decode, decodeFamily8]

theorem decode_andReg (x y : Nibble) : decode (wordXY 0x8 x y 0x2) = .ok (.andReg x y) := by
  simp [decode, decodeFamily8]

theorem decode_xorReg (x y : Nibble) : decode (wordXY 0x8 x y 0x3) = .ok (.xorReg x y) := by
  simp [decode, decodeFamily8]

section
variable (x y : Nibble) (kk : Byte) (s : State)

theorem exec_ldByte : exec (.ldByte x kk) s = writeReg s x kk := rfl

theorem exec_addByte : exec (.addByte x kk) s = writeReg s x (s.v x + kk) := rfl

theorem exec_ldReg : exec (.ldReg x y) s = writeReg s x (s.v y) := rfl

theorem exec_andReg : exec (.andReg x y) s = writeReg s x (s.v x &&& s.v y) := rfl

theorem exec_xorReg : exec (.xorReg x y) s = writeReg s x (s.v x ^^^ s.v y) := rfl

end

/-! ## The statements -/

/-- Settles O23: the immediate is the value written. -/
theorem loadByteSetsOneRegister : Obligations.LoadByteSetsOneRegister := by
  unfold Obligations.LoadByteSetsOneRegister
  intro x kk s
  rw [exec_ldByte]
  exact ⟨decode_ldByte x kk, writeReg_spec s x kk⟩

/-- Settles O24: a sum of bytes is the sum modulo 256, and writeReg leaves VF alone unless it is the destination. -/
theorem addByteWrapsWithoutFlag : Obligations.AddByteWrapsWithoutFlag := by
  unfold Obligations.AddByteWrapsWithoutFlag
  intro x kk s
  obtain ⟨t, hnext, hv, hpc, hframe⟩ := writeReg_spec s x (s.v x + kk)
  refine ⟨decode_addByte x kk, t, (exec_addByte x kk s).trans hnext, ?_, hpc, hframe⟩
  rw [hv, BitVec.toNat_add]

/-- Settles O25: each writes Vx one value, of which the AND and the XOR are known bit by bit. -/
theorem copyAndXorOfRegisters : Obligations.CopyAndXorOfRegisters := by
  unfold Obligations.CopyAndXorOfRegisters
  intro x y s
  refine ⟨decode_ldReg x y, decode_andReg x y, decode_xorReg x y, ?_, ?_, ?_⟩
  · rw [exec_ldReg]
    exact writeReg_spec s x (s.v y)
  · obtain ⟨t, hnext, hv, hpc, hframe⟩ := writeReg_spec s x (s.v x &&& s.v y)
    refine ⟨t, (exec_andReg x y s).trans hnext, fun j => ?_, hpc, hframe⟩
    rw [hv, BitVec.getLsbD_and]
  · obtain ⟨t, hnext, hv, hpc, hframe⟩ := writeReg_spec s x (s.v x ^^^ s.v y)
    refine ⟨t, (exec_xorReg x y s).trans hnext, fun j => ?_, hpc, hframe⟩
    rw [hv, BitVec.getLsbD_xor]

end Sys2Proof.Machine
end

section
/-! PROOF. The index load (spec/44_index_memory.md R191). It ends in one write of I and the move of pc to the next word;
setIndex_spec says what such an ending changes, for any new value of I. -/
namespace Sys2Proof.Machine

/-- A write of I touches no other place: memory too is read by its own address. -/
theorem changesOnly_setI (s : State) (w : Word) : ChangesOnly (· ∈ [.index]) s (s.setI w) := by
  intro q hq
  cases q with
  | index => exact absurd (List.mem_singleton_self _) hq
  -- Every other place is read through a field that setI leaves alone.
  | _ => rfl

/-- The end of an instruction that writes I: it completes in every state with the new I, adds 2 to pc, and changes nothing
else. -/
theorem setIndex_spec (s : State) (w : Word) :
    ∃ t, done s (s.setI w) .seq = .next t ∧ t.I = w ∧ t.pc = s.pc + 2 ∧ ChangesOnly (· ∈ [.index, .pc]) s t := by
  have hindex : ChangesOnly (· ∈ [.index, .pc]) s (s.setI w) := (changesOnly_setI s w).mono (by simp)
  have hpc : ChangesOnly (· ∈ [.index, .pc]) (s.setI w) ((s.setI w).setPc (s.pc + 2)) :=
    (changesOnly_setPc _ _).mono (by simp)
  exact ⟨_, done_eq s _ .seq, by simp, pc_setPc _ _, hindex.trans hpc⟩

/-- An address keeps its value when it is widened to a word. -/
theorem addrOperand_toNat (nnn : Addr) : (addrOperand nnn).toNat = nnn.toNat :=
  BitVec.toNat_setWidth_of_le (by decide)

theorem decode_ldI (nnn : Addr) : decode (wordA 0xA nnn) = .ok (.ldI nnn) := by
  simp [decode]

theorem exec_ldI (nnn : Addr) (s : State) : exec (.ldI nnn) s = done s (s.setI (addrOperand nnn)) .seq := rfl

/-- Settles O31: the value written to I is the address operand, which a word holds whole. -/
theorem loadIndexSetsI : Obligations.LoadIndexSetsI := by
  unfold Obligations.LoadIndexSetsI
  intro nnn s
  obtain ⟨t, hnext, hindex, hpc, hframe⟩ := setIndex_spec s (addrOperand nnn)
  refine ⟨decode_ldI nnn, t, (exec_ldI nnn s).trans hnext, ?_, hpc, hframe⟩
  rw [hindex, addrOperand_toNat]

end Sys2Proof.Machine
end

section
/-! PROOF. The timer accesses (spec/45_timers_keys.md R210, R213, R214). The read of the delay timer is a register write, which
writeReg_spec describes. A write of a timer is one place and then pc; changesOnly_seq joins the two frames for any such place,
and an instruction's part is the timer it writes. -/
namespace Sys2Proof.Machine

/-! ## Frames -/

/-- A write of the delay timer touches no other place, the sound timer included. -/
theorem changesOnly_setDt (s : State) (b : Byte) : ChangesOnly (· ∈ [.dt]) s (s.setDt b) := by
  intro q hq
  cases q with
  | dt => exact absurd (List.mem_singleton_self _) hq
  -- Every other place is read through a field that setDt leaves alone.
  | _ => rfl

/-- A write of the sound timer touches no other place, the delay timer included. -/
theorem changesOnly_setSt (s : State) (b : Byte) : ChangesOnly (· ∈ [.st]) s (s.setSt b) := by
  intro q hq
  cases q with
  | st => exact absurd (List.mem_singleton_self _) hq
  -- Every other place is read through a field that setSt leaves alone.
  | _ => rfl

/-- An instruction that changes one place and moves on to another pc changes these two places alone. -/
theorem changesOnly_seq {p : Place} {s t : State} (h : ChangesOnly (· ∈ [p]) s t) (w : Word) :
    ChangesOnly (· ∈ [p, .pc]) s (t.setPc w) := by
  have hplace : ChangesOnly (· ∈ [p, .pc]) s t := h.mono (by simp)
  have hpc : ChangesOnly (· ∈ [p, .pc]) t (t.setPc w) := (changesOnly_setPc t w).mono (by simp)
  exact hplace.trans hpc

/-! ## The words and the meanings -/

section
variable (x : Nibble) (s : State)

theorem decode_ldVxDt : decode (wordXK 0xF x 0x07) = .ok (.ldVxDt x) := by
  simp [decode, decodeFamilyF]

theorem decode_ldDtVx : decode (wordXK 0xF x 0x15) = .ok (.ldDtVx x) := by
  simp [decode, decodeFamilyF]

theorem decode_ldStVx : decode (wordXK 0xF x 0x18) = .ok (.ldStVx x) := by
  simp [decode, decodeFamilyF]

theorem exec_ldVxDt : exec (.ldVxDt x) s = writeReg s x s.dt := rfl

theorem exec_ldDtVx : exec (.ldDtVx x) s = done s (s.setDt (s.v x)) .seq := rfl

theorem exec_ldStVx : exec (.ldStVx x) s = done s (s.setSt (s.v x)) .seq := rfl

end

/-! ## The statement -/

/-- Settles O41: the read ends in writeReg; each of the two writes sets its timer and pc, and their frames compose. -/
theorem timerAccesses : Obligations.TimerAccesses := by
  unfold Obligations.TimerAccesses
  intro x s
  refine ⟨decode_ldVxDt x, decode_ldDtVx x, decode_ldStVx x, ?_, ?_, ?_⟩
  · rw [exec_ldVxDt]
    exact writeReg_spec s x s.dt
  · rw [exec_ldDtVx]
    exact ⟨_, done_eq s _ .seq, dt_setDt s (s.v x), pc_setPc _ _, changesOnly_seq (changesOnly_setDt s (s.v x)) _⟩
  · rw [exec_ldStVx]
    exact ⟨_, done_eq s _ .seq, st_setSt s (s.v x), pc_setPc _ _, changesOnly_seq (changesOnly_setSt s (s.v x)) _⟩

end Sys2Proof.Machine
end

section
/-! PROOF. CLS (spec/46_display.md R231). It ends in a write of the display, a set of the draw flag and the move of pc to the
next word; showDisplay_spec says what such an ending changes, for any new display. CLS is the ending with the blank one. -/
namespace Sys2Proof.Machine

/-! ## Frames -/

/-- A write of the display touches pixels only: the draw flag is a place of its own. -/
theorem changesOnly_setDisp (s : State) (d : Display) : ChangesOnly (∃ x y, · = .pixel x y) s (s.setDisp d) := by
  intro q hq
  cases q with
  | pixel x y => exact absurd ⟨x, y, rfl⟩ hq
  -- Every other place is read through a field that setDisp leaves alone.
  | _ => rfl

/-- A write of the draw flag touches no other place, no pixel included. -/
theorem changesOnly_setDrawFlag (s : State) (b : Bool) : ChangesOnly (· ∈ [.drawFlag]) s (s.setDrawFlag b) := by
  intro q hq
  cases q with
  | drawFlag => exact absurd (List.mem_singleton_self _) hq
  -- Every other place is read through a field that setDrawFlag leaves alone.
  | _ => rfl

/-- The end of an instruction that writes the display alone: it completes in every state with the new pixels and the draw flag
set, adds 2 to pc, and changes nothing else. -/
theorem showDisplay_spec (s : State) (d : Display) :
    ∃ t, done s ((s.setDisp d).setDrawFlag true) .seq = .next t ∧ (∀ x y, t.pixel x y = d.pixel x y) ∧ t.drawFlag = true ∧
      t.pc = s.pc + 2 ∧ ChangesOnly (fun q => q ∈ [.drawFlag, .pc] ∨ ∃ x y, q = .pixel x y) s t := by
  have hdisp : ChangesOnly (∃ x y, · = .pixel x y) s (s.setDisp d) := changesOnly_setDisp s d
  have hrest : ChangesOnly (· ∈ [.drawFlag, .pc]) (s.setDisp d) (((s.setDisp d).setDrawFlag true).setPc (s.pc + 2)) :=
    changesOnly_seq (changesOnly_setDrawFlag _ true) _
  exact ⟨_, done_eq s _ .seq, by simp, by simp, pc_setPc _ _,
    (hdisp.mono fun _ => Or.inr).trans (hrest.mono fun _ => Or.inl)⟩

/-! ## The word, the meaning and the statement -/

theorem decode_cls : decode 0x00E0 = .ok .cls := by decide

theorem exec_cls (s : State) : exec .cls s = done s ((s.setDisp Display.blank).setDrawFlag true) .seq := rfl

/-- Settles O45: the display written is the blank one, whose pixels are all 0, whatever the display held. -/
theorem clearBlanksTheDisplay : Obligations.ClearBlanksTheDisplay := by
  unfold Obligations.ClearBlanksTheDisplay
  intro s
  obtain ⟨t, hnext, hpixel, hflag, hpc, hframe⟩ := showDisplay_spec s Display.blank
  exact ⟨decode_cls, t, (exec_cls s).trans hnext, fun x y => (hpixel x y).trans (pixel_blank x y), hflag, hpc, hframe⟩

end Sys2Proof.Machine
end

section
/-! PROOF. The construction with a ROM (spec/70_reset_and_hazards.md R281 to R283). loadRom has three outcomes, one equation each;
an accepted ROM is one store into the reset state's memory, and changesOnly_store says once what a store touches. -/
namespace Sys2Proof.Machine

/-! ## What a store touches -/

/-- A store of bytes from a on touches no register and no byte outside its own range. -/
theorem changesOnly_store (s : State) (a : Nat) (bs : List Byte) :
    ChangesOnly (∃ b, · = .byte b ∧ a ≤ b ∧ b < a + bs.length) s (s.setMem (s.mem.store a bs)) := by
  intro q hq
  cases q with
  | byte b =>
    have hout : ¬(a ≤ b ∧ b < a + bs.length) := fun hin => hq ⟨b, rfl, hin⟩
    simp only [Place.get, byteAt_setMem, Memory.read_store, if_neg hout]
    rfl
  -- Every other place is read through a field that setMem leaves alone.
  | _ => rfl

/-- Above the font image the reset state's memory is 0 (R40). -/
theorem byteAt_reset_above_font {a : Nat} (h : fontBase + 80 ≤ a) : State.reset.byteAt a = 0 := resetByte_above_font h

/-! ## The three outcomes of a construction -/

theorem loadRom_none : loadRom none = .fault .romReadError := rfl

theorem loadRom_of_gt {rom : List Byte} (h : Config.romMax < rom.length) : loadRom (some rom) = .fault .romTooBig := by
  rw [loadRom, if_pos h, raise_eq]

theorem loadRom_of_le {rom : List Byte} (h : rom.length ≤ Config.romMax) :
    loadRom (some rom) = .next (State.reset.setMem (State.reset.mem.store Config.programBase rom)) := by
  rw [loadRom, if_neg (Nat.not_lt.2 h)]

/-- Settles O57: the length decides the outcome, and an accepted ROM is stored at PROGRAM_BASE, past the font image, so that what
the store leaves alone above it is still 0. -/
theorem romIsCopiedVerbatim : Obligations.RomIsCopiedVerbatim := by
  unfold Obligations.RomIsCopiedVerbatim
  refine ⟨loadRom_none, fun rom => ⟨loadRom_of_gt, fun hlen => ⟨_, loadRom_of_le hlen, ?_, ?_, changesOnly_store _ _ rom⟩⟩⟩
  · intro k hk
    rw [byteAt_setMem, Config.programBase, Memory.read_store_at _ _ _ _ hk, List.getD_eq_getElem _ _ hk]
  · intro a ha
    have hfont : fontBase + 80 ≤ a := by have := font_in_reserved_area; omega
    have hframe := changesOnly_store State.reset Config.programBase rom
    rw [hframe.byteAt_eq a ?_, byteAt_reset_above_font hfont]
    -- No byte of the ROM reaches a.
    rintro ⟨b, hb, -, hlt⟩
    cases hb
    exact absurd hlt (Nat.not_lt.2 ha)

end Sys2Proof.Machine
end

section
/-! PROOF. Encoding and back (spec/30_encoding.md R70 to R78). A word's fields are the operands it was laid out from, so the
decoder answers the instruction that was encoded; the illegal words follow family by family. -/
namespace Sys2Proof

/-! ## Decoding an encoded instruction -/

/-- Every instruction is decoded back from its word: the format's fields are the operands (R71), and the family's selector
field picks the instruction. -/
theorem decode_encode (i : Instr) : decode (encode i) = .ok i := by
  cases i with
  | cls | ret => decide
  | jp | call | ldI | jpV0 => simp [encode, decode]
  | seByte | sneByte | ldByte | addByte | rnd => simp [encode, decode]
  | seReg | sneReg | drw => simp [encode, decode]
  | ldReg | orReg | andReg | xorReg | addReg | subReg | shr | subnReg | shl => simp [encode, decode, decodeFamily8]
  | skp | sknp => simp [encode, decode, decodeFamilyE]
  | ldVxDt | ldVxK | ldDtVx | ldStVx | addI | ldF | ldB | stRegs | ldRegs => simp [encode, decode, decodeFamilyF]

/-- Settles O2: the operands are the fields of the encoded word, and the decoder reads no byte after the word's two. -/
theorem decodeOfEncode : Obligations.DecodeOfEncode := by
  unfold Obligations.DecodeOfEncode
  intro i rest
  have hdecode : decode (encode i) = .ok i := decode_encode i
  refine ⟨Laws.wellFormed_all i, hdecode, ?_⟩
  rw [decodeBytes_bytesOfWord, hdecode]
  rfl

/-- Settles O1: the words are closed, and the decoder runs on them. -/
theorem writtenWordsDecode : Obligations.WrittenWordsDecode := by
  unfold Obligations.WrittenWordsDecode
  decide

/-! ## The rows of the opcode map -/

/-- Two rows that match one word are the same row: what the word decodes to has both rows' name. -/
theorem row_unique {w : Word} {row row' : OpcodeRow} (hrow : row ∈ opcodeMap) (hrow' : row' ∈ opcodeMap)
    (h : w &&& row.mask = row.pattern) (h' : w &&& row'.mask = row'.pattern) : row = row' := by
  obtain ⟨i, hi, hname⟩ := (decoderIsTheOpcodeMap w row hrow).1 h
  obtain ⟨i', hi', hname'⟩ := (decoderIsTheOpcodeMap w row' hrow').1 h'
  obtain rfl : i = i' := Except.ok.inj (hi.symm.trans hi')
  exact row_eq_of_mnemonic_eq row hrow row' hrow' (hname.symm.trans hname')

theorem opcodeMap_nodup : opcodeMap.Nodup := by decide

/-- Settles O5: the rows that match a word are all the same row, and the map lists no row twice. -/
theorem opcodeRowsDoNotOverlap : Obligations.OpcodeRowsDoNotOverlap := by
  unfold Obligations.OpcodeRowsDoNotOverlap
  intro w
  rw [← List.toFinset_card_of_nodup (opcodeMap_nodup.filter _), Finset.card_le_one]
  intro row hrow row' hrow'
  obtain ⟨hmem, hmatch⟩ := List.mem_filter.1 (List.mem_toFinset.1 hrow)
  obtain ⟨hmem', hmatch'⟩ := List.mem_filter.1 (List.mem_toFinset.1 hrow')
  exact row_unique hmem hmem' (eq_of_beq hmatch) (eq_of_beq hmatch')

/-! ## The illegal words -/

theorem decodeFamily0_error (w : Word) :
    decodeFamily0 w = .error (.opcodeError w) ↔ w ≠ 0x00E0 ∧ w ≠ 0x00EE := by
  unfold decodeFamily0
  split
  · simp_all
  · split <;> simp_all

theorem decodeFamily8_error (w : Word) :
    decodeFamily8 w = .error (.opcodeError w) ↔ fieldN w ∈ [0x8, 0x9, 0xA, 0xB, 0xC, 0xD, 0xF] := by
  have hlt := (fieldN w).isLt
  simp only [List.mem_cons, List.not_mem_nil, ← BitVec.toNat_inj]
  unfold decodeFamily8
  split
  -- No other nibble is left than those of the list.
  case h_10 => simp only [BitVec.reduceToNat, true_iff, imp_false] at *; omega
  all_goals simp [*]

theorem decodeFamilyE_error (w : Word) :
    decodeFamilyE w = .error (.opcodeError w) ↔ fieldKK w ∉ [0x9E, 0xA1] := by
  simp only [List.mem_cons, List.not_mem_nil, ← BitVec.toNat_inj]
  unfold decodeFamilyE
  split <;> simp_all

theorem decodeFamilyF_error (w : Word) :
    decodeFamilyF w = .error (.opcodeError w) ↔
      fieldKK w ∉ [0x07, 0x0A, 0x15, 0x18, 0x1E, 0x29, 0x33, 0x55, 0x65] := by
  simp only [List.mem_cons, List.not_mem_nil, ← BitVec.toNat_inj]
  unfold decodeFamilyF
  split <;> simp_all

/-- Settles O6: the family nibble picks one of the six classes, or a family without an illegal word. -/
theorem illegalWordsAreExactlyThese : Obligations.IllegalWordsAreExactlyThese := by
  unfold Obligations.IllegalWordsAreExactlyThese
  intro w
  have hlt := (fieldOp w).isLt
  have hop (k : Nibble) (hk : (fieldOp w).toNat = k.toNat) : fieldOp w = k := BitVec.eq_of_toNat_eq hk
  unfold decode
  split
  case h_1 hf => simp [hop 0x0 hf, decodeFamily0_error]
  case h_6 hf => simp [hop 0x5 hf]
  case h_9 hf => simp [hop 0x8 hf, decodeFamily8_error]
  case h_10 hf => simp [hop 0x9 hf]
  case h_15 hf => simp [hop 0xE hf, decodeFamilyE_error]
  case h_16 hf => simp [hop 0xF hf, decodeFamilyF_error]
  -- A nibble has 16 values.
  case h_17 => simp only [imp_false] at *; omega
  -- The families that decode every word.
  all_goals simp [← BitVec.toNat_inj, *]

end Sys2Proof
end

section
/-! PROOF. The instructions that can stop, and the invariant of the machine (spec/10_state.md R28, spec/20_memory.md). Each such
instruction is one choice, written here with the condition of spec/60_exceptions.md on numbers: completes_iff then says when it
completes and with which state. Only CALL and RET move sp, and only LD B and LD [I] write memory. -/
namespace Sys2Proof.Machine

/-! ## The instructions that can stop -/

/-- An instruction that completes under a condition and else stops has completed: the condition held, and this is the state. -/
theorem completes_iff {c : Prop} [Decidable c] {t u : State} {f : Fault} :
    (if c then .next u else .fault f : Result) = .next t ↔ c ∧ u = t := by
  by_cases h : c <;> simp [h]

/-- What a sprite of n rows, drawn at (V[x], V[y]), makes of the display, and whether it collides. -/
def spriteDrawn (s : State) (x y n : Nibble) : Display × Bool :=
  drawRows (s.v x) (s.v y) 0 (s.mem.load s.I.toNat n.toNat) (s.disp, false)

/-- The state a DRW leaves, but for pc. -/
def afterDraw (s : State) (x y n : Nibble) : State :=
  ((s.setDisp (spriteDrawn s x y n).1).setDrawFlag true).setV flagIdx (flagByte (spriteDrawn s x y n).2)

section
variable (s : State) (x y n : Nibble) (nnn : Addr)

theorem exec_ret : exec .ret s =
    if 1 ≤ s.sp.toInt ∧ s.sp.toInt ≤ 15 then
      .next ((s.setSp (s.sp - 1)).setPc (s.stackEntry (stackIdx s.sp) + 2))
    else .fault (.invalidStackPointer s.sp) := by
  have hstop : stackPtrInvalid s.sp = true ∨ s.sp = 0 ↔ ¬(1 ≤ s.sp.toInt ∧ s.sp.toInt ≤ 15) := by
    rw [stackPtrInvalid_iff, ← BitVec.toInt_inj, show (0 : Byte).toInt = 0 by decide]; omega
  change execRet s = _
  simp only [execRet, ← ite_or, hstop, ite_not]
  rfl

theorem exec_call : exec (.call nnn) s =
    if 0 ≤ s.sp.toInt ∧ s.sp.toInt ≤ 14 then
      .next (((s.setSp (s.sp + 1)).setStackEntry (stackIdx (s.sp + 1)) s.pc).setPc (addrOperand nnn))
    else .fault (.invalidStackPointer s.sp) := by
  have hstop : stackPtrInvalid s.sp = true ∨ 16 ≤ s.sp.toInt + 1 ↔ ¬(0 ≤ s.sp.toInt ∧ s.sp.toInt ≤ 14) := by
    rw [stackPtrInvalid_iff]; omega
  change execCall nnn s = _
  simp only [execCall, ← ite_or, hstop, ite_not]
  rfl

theorem exec_skp : exec (.skp x) s =
    if (s.v x).toNat ≤ 0xF then .next (s.setPc (if s.pressed (hexDigit (s.v x)) == true then s.pc + 4 else s.pc + 2))
    else .fault (.invalidKey (s.v x)) := skipOnKey_eq s x true

theorem exec_sknp : exec (.sknp x) s =
    if (s.v x).toNat ≤ 0xF then .next (s.setPc (if s.pressed (hexDigit (s.v x)) == false then s.pc + 4 else s.pc + 2))
    else .fault (.invalidKey (s.v x)) := skipOnKey_eq s x false

theorem exec_ldF : exec (.ldF x) s =
    if (s.v x).toNat ≤ 0xF then .next ((s.setI (glyphAddr (s.v x))).setPc (s.pc + 2))
    else .fault (.invalidDigit (s.v x)) := by
  change execLdF x s = _
  simp only [execLdF, isHexDigit_iff]
  rfl

theorem exec_drw : exec (.drw x y n) s =
    if n.toNat = 0 ∨ s.I.toNat + n.toNat - 1 ≤ 0xFFF then .next ((afterDraw s x y n).setPc (s.pc + 2))
    else .fault (.addressOutOfRange s.I) := by
  have hstop : n ≠ 0 ∧ inRange (indexAddr s) n.toNat = false ↔
      ¬(n.toNat = 0 ∨ s.I.toNat + n.toNat - 1 ≤ 0xFFF) := by
    rw [← Bool.not_eq_true, inRange_iff, not_or, ne_eq, ← BitVec.toNat_inj]; rfl
  change execDrw x y n s = _
  simp only [execDrw, hstop, ite_not]
  rfl

theorem exec_ldB : exec (.ldB x) s =
    if s.I.toNat + 2 ≤ 0xFFF then .next ((s.setMem (s.mem.store s.I.toNat (bcdBytes (s.v x)))).setPc (s.pc + 2))
    else .fault (.addressOutOfRange s.I) := by
  change execLdB x s = _
  simp only [execLdB, inRange_iff]
  rfl

theorem exec_stRegs : exec (.stRegs x) s =
    if s.I.toNat + x.toNat ≤ 0xFFF then .next ((s.setMem (s.mem.store s.I.toNat (regBlock s x))).setPc (s.pc + 2))
    else .fault (.addressOutOfRange s.I) := by
  change execStRegs x s = _
  simp only [execStRegs, inRange_iff]
  rfl

theorem exec_ldRegs : exec (.ldRegs x) s =
    if s.I.toNat + x.toNat ≤ 0xFFF then
      .next ((s.setRegs (loadBlock s.mem s.I.toNat s.V (x.toNat + 1))).setPc (s.pc + 2))
    else .fault (.addressOutOfRange s.I) := by
  change execLdRegs x s = _
  simp only [execLdRegs, inRange_iff]
  rfl

/-- The key wait has two outcomes: it waits while no key is pressed, and else takes the lowest (R211, R212). -/
theorem exec_ldVxK_none (h : lowestKey s = none) : exec (.ldVxK x) s = .next s := by
  change execLdVxK x s = _
  rw [execLdVxK, h, wait_eq]

theorem exec_ldVxK_some {k : Nibble} (h : lowestKey s = some k) : exec (.ldVxK x) s = writeReg s x (k.setWidth 8) := by
  change execLdVxK x s = _
  rw [execLdVxK, h]

end

/-! ## A step is a fetch, a decode and an execution -/

section
variable {s t : State} {w : Word} {i : Instr}

theorem step_of_fetch_error {f : Fault} (h : fetch s = .error f) : step s = .fault f := by
  simp only [step, h, raise_eq]

theorem step_of_decode_error {e : DecodeError} (hf : fetch s = .ok w) (hd : decode w = .error e) :
    step s = .fault (.opcodeError w) := by
  simp only [step, hf, hd, raise_eq]

theorem step_of_decode (hf : fetch s = .ok w) (hd : decode w = .ok i) : step s = exec i s := by
  simp only [step, hf, hd]

/-- A step that completes has executed one instruction. -/
theorem exec_of_step (h : step s = .next t) : ∃ i, exec i s = .next t := by
  cases hf : fetch s with
  | error f => rw [step_of_fetch_error hf] at h; cases h
  | ok w =>
    cases hd : decode w with
    | error e => rw [step_of_decode_error hf hd] at h; cases h
    | ok i => exact ⟨i, (step_of_decode hf hd).symm.trans h⟩

end

/-! ## The invariant -/

/-- The invariant speaks of memory and sp alone. -/
theorem Invariant.congr {s t : State} (h : Invariant s) (hmem : t.mem = s.mem) (hsp : t.sp = s.sp) : Invariant t := by
  obtain ⟨hwf, hlow, hhigh⟩ := h
  exact ⟨hmem ▸ hwf, hsp ▸ hlow, hsp ▸ hhigh⟩

/-- Only four instructions write memory or sp. -/
theorem mem_sp_of_exec {i : Instr} {s t : State} (hret : i ≠ .ret) (hcall : ∀ nnn, i ≠ .call nnn)
    (hldB : ∀ x, i ≠ .ldB x) (hstRegs : ∀ x, i ≠ .stRegs x) (h : exec i s = .next t) :
    t.mem = s.mem ∧ t.sp = s.sp := by
  cases i with
  | ret => exact absurd rfl hret
  | call nnn => exact absurd rfl (hcall nnn)
  | ldB x => exact absurd rfl (hldB x)
  | stRegs x => exact absurd rfl (hstRegs x)
  -- The other instructions that can stop write neither where they complete.
  | skp | sknp | ldF | drw | ldRegs =>
    simp only [exec_skp, exec_sknp, exec_ldF, exec_drw, exec_ldRegs, completes_iff] at h
    obtain ⟨-, rfl⟩ := h
    exact ⟨rfl, rfl⟩
  | ldVxK x =>
    cases hkey : lowestKey s with
    | none =>
      obtain rfl := next_inj.1 ((exec_ldVxK_none s x hkey).symm.trans h)
      exact ⟨rfl, rfl⟩
    | some k =>
      obtain rfl := next_inj.1 ((exec_ldVxK_some s x hkey).symm.trans h)
      exact ⟨rfl, rfl⟩
  -- Every other instruction has one outcome, its writes beside memory and sp.
  | _ =>
    obtain rfl := next_inj.1 h
    exact ⟨rfl, rfl⟩

/-- A stack pointer moved by one inside 0..15 is the neighbouring number. -/
theorem toInt_sub_one {sp : Byte} (h : 1 ≤ sp.toInt) : (sp - 1).toInt = sp.toInt - 1 := by
  have := BitVec.toInt_lt (x := sp)
  rw [BitVec.toInt_sub, show (1 : Byte).toInt = 1 by decide]
  exact Int.bmod_eq_of_le (by omega) (by omega)

theorem toInt_add_one {sp : Byte} (hlow : 0 ≤ sp.toInt) (hhigh : sp.toInt ≤ 14) : (sp + 1).toInt = sp.toInt + 1 := by
  rw [BitVec.toInt_add, show (1 : Byte).toInt = 1 by decide]
  exact Int.bmod_eq_of_le (by omega) (by omega)

/-- The invariant is kept by each execution: RET and CALL leave the range of sp only by stopping, LD B and LD [I] store inside
memory, and the rest write neither. -/
theorem invariant_of_exec {i : Instr} {s t : State} (hinv : Invariant s) (h : exec i s = .next t) : Invariant t := by
  cases i with
  | ret =>
    obtain ⟨hwf, -, hhigh⟩ := hinv
    rw [exec_ret, completes_iff] at h
    obtain ⟨⟨hpos, -⟩, rfl⟩ := h
    have hsp := toInt_sub_one hpos
    refine ⟨hwf, ?_, ?_⟩ <;> simp only [sp_setPc, sp_setSp, hsp] <;> omega
  | call nnn =>
    obtain ⟨hwf, hlow, -⟩ := hinv
    rw [exec_call, completes_iff] at h
    obtain ⟨⟨-, hhigh⟩, rfl⟩ := h
    have hsp := toInt_add_one hlow hhigh
    refine ⟨hwf, ?_, ?_⟩ <;> simp only [sp_setPc, sp_setStackEntry, sp_setSp, hsp] <;> omega
  | ldB x =>
    obtain ⟨hwf, hsp⟩ := hinv
    rw [exec_ldB, completes_iff] at h
    obtain ⟨hI, rfl⟩ := h
    exact ⟨Memory.wf_store hwf _ (by simp only [bcdBytes_length, Config.memSize]; omega), hsp⟩
  | stRegs x =>
    obtain ⟨hwf, hsp⟩ := hinv
    rw [exec_stRegs, completes_iff] at h
    obtain ⟨hI, rfl⟩ := h
    exact ⟨Memory.wf_store hwf _ (by simp only [regBlock_length, Config.memSize]; omega), hsp⟩
  | _ =>
    obtain ⟨hmem, hsp⟩ := mem_sp_of_exec (by simp) (by simp) (by simp) (by simp) h
    exact hinv.congr hmem hsp

/-- Settles O52: a step that completes is one execution. -/
theorem stepKeepsTheInvariant : Obligations.StepKeepsTheInvariant := by
  unfold Obligations.StepKeepsTheInvariant
  intro s t hinv hstep
  obtain ⟨i, hexec⟩ := exec_of_step hstep
  exact invariant_of_exec hinv hexec

/-- No host action writes memory or sp. -/
theorem invariant_hostAct {s : State} (a : HostAction) (h : Invariant s) : Invariant (hostAct s a) := by
  cases a with
  | setKey | tick | clearDrawFlag => exact h.congr rfl rfl

/-- Settles O53, by induction on the list of host actions. -/
theorem hostKeepsTheInvariant : Obligations.HostKeepsTheInvariant := by
  unfold Obligations.HostKeepsTheInvariant
  intro s acts hinv
  induction acts generalizing s with
  | nil => exact hinv
  | cons a acts ih => exact ih (hostAct s a) (invariant_hostAct a hinv)

/-- Settles O54: no cell is listed at reset, and sp is 0. -/
theorem resetMeetsTheInvariant : Obligations.ResetMeetsTheInvariant := by
  unfold Obligations.ResetMeetsTheInvariant
  exact ⟨Memory.wf_nil, by decide, by decide⟩

/-- An accepted ROM fits above PROGRAM_BASE, so loading it is a store inside memory. -/
theorem invariant_of_loadRom {rom : Option (List Byte)} {s : State} (h : loadRom rom = .next s) : Invariant s := by
  obtain ⟨hwf, hsp⟩ := resetMeetsTheInvariant
  cases rom with
  | none => rw [loadRom_none] at h; cases h
  | some bytes =>
    rcases Nat.lt_or_ge Config.romMax bytes.length with hlen | hlen
    · rw [loadRom_of_gt hlen] at h; cases h
    · obtain rfl := next_inj.1 ((loadRom_of_le hlen).symm.trans h)
      have hfits : Config.programBase + bytes.length ≤ Config.memSize := by
        simp only [Config.romMax] at hlen
        simp only [Config.programBase, Config.memSize]
        omega
      exact ⟨Memory.wf_store hwf bytes hfits, hsp⟩

/-- Settles O55, by induction on how the state is reached. -/
theorem everyRunKeepsTheInvariant : Obligations.EveryRunKeepsTheInvariant := by
  unfold Obligations.EveryRunKeepsTheInvariant
  intro s hreach
  induction hreach with
  | load hload => exact invariant_of_loadRom hload
  | cycle _ hstep ih => exact stepKeepsTheInvariant _ _ ih hstep
  | host a _ ih => exact invariant_hostAct a ih

end Sys2Proof.Machine
end

section
/-! PROOF. The cycle and its status (spec/40_fetch_decode_cycle.md R100 to R107, spec/60_exceptions.md R250 to R254). Every
execution either completes or stops with the error stopOf names: Stops says which, and a cycle's status is read off it. -/
namespace Sys2Proof.Machine

/-! ## Where an instruction stops -/

/-- An outcome is the one announced: the next state where no error is, and else that error. -/
def Stops (r : Result) (o : Option Fault) : Prop :=
  (o = none ∧ ∃ t, r = .next t) ∨ ∃ f, o = some f ∧ r = .fault f

theorem stops_next (t : State) : Stops (.next t) none := .inl ⟨rfl, t, rfl⟩

theorem stops_ite (c : Prop) [Decidable c] (t : State) (f : Fault) :
    Stops (if c then .next t else .fault f) (if c then none else some f) := by
  by_cases h : c
  · simpa only [if_pos h] using stops_next t
  · simpa only [if_neg h] using .inr ⟨f, rfl, rfl⟩

/-- Every instruction stops exactly where spec/60_exceptions.md lists it: nine of them on their condition, the others never. -/
theorem exec_stops (i : Instr) (s : State) : Stops (exec i s) (stopOf s i) := by
  cases i with
  | ret | call | skp | sknp | ldF | drw | ldB | stRegs | ldRegs =>
    simp only [exec_ret, exec_call, exec_skp, exec_sknp, exec_ldF, exec_drw, exec_ldB, exec_stRegs, exec_ldRegs]
    exact stops_ite ..
  | ldVxK x =>
    cases hkey : lowestKey s with
    | none => rw [exec_ldVxK_none s x hkey]; exact stops_next _
    | some k => rw [exec_ldVxK_some s x hkey]; exact stops_next _
  | _ => exact stops_next _

theorem exec_of_stopOf {i : Instr} {s : State} {f : Fault} (h : stopOf s i = some f) : exec i s = .fault f := by
  rcases exec_stops i s with ⟨hnone, -⟩ | ⟨g, hg, hexec⟩
  · rw [hnone] at h; cases h
  · rw [hexec, Option.some.inj (hg.symm.trans h)]

theorem exec_of_stopOf_none {i : Instr} {s : State} (h : stopOf s i = none) : ∃ t, exec i s = .next t := by
  rcases exec_stops i s with ⟨-, hnext⟩ | ⟨f, hf, -⟩
  · exact hnext
  · rw [hf] at h; cases h

theorem stopOf_of_exec_fault {i : Instr} {s : State} {f : Fault} (h : exec i s = .fault f) : stopOf s i = some f := by
  rcases exec_stops i s with ⟨-, t, hexec⟩ | ⟨g, hg, hexec⟩
  · rw [hexec] at h; cases h
  · rw [hexec] at h; cases h; exact hg

theorem stopOf_of_exec_next {i : Instr} {s t : State} (h : exec i s = .next t) : stopOf s i = none := by
  rcases exec_stops i s with ⟨hnone, -⟩ | ⟨f, -, hexec⟩
  · exact hnone
  · rw [hexec] at h; cases h

/-- Settles O9: an execution has the one outcome stopOf announces. -/
theorem errorsExactlyWhereListed : Obligations.ErrorsExactlyWhereListed := by
  unfold Obligations.ErrorsExactlyWhereListed
  intro i s
  exact ⟨fun f => ⟨stopOf_of_exec_fault, exec_of_stopOf⟩,
    ⟨fun ⟨_, hexec⟩ => stopOf_of_exec_next hexec, exec_of_stopOf_none⟩⟩

/-- No instruction stops with an error of the construction (R282, R283). -/
theorem stopOf_ne_rom {i : Instr} {s : State} {f : Fault} (h : stopOf s i = some f) : f ≠ .romTooBig ∧ f ≠ .romReadError := by
  cases i with
  | ret | call | skp | sknp | ldF | drw | ldB | stRegs | ldRegs =>
    simp only [stopOf, Option.ite_none_left_eq_some, Option.some.injEq] at h
    obtain ⟨-, rfl⟩ := h
    exact ⟨nofun, nofun⟩
  | _ => cases h

/-! ## The fetch and the decode -/

/-- Settles O7: the two bytes at pc are the word fetched. -/
theorem stepRunsTheDecodedInstruction : Obligations.StepRunsTheDecodedInstruction := by
  unfold Obligations.StepRunsTheDecodedInstruction
  intro s i hpc _ hbytes
  refine step_of_decode (fetch_of_le hpc) ?_
  cases hd : decode (wordOfBytes (s.byteAt s.pc.toNat) (s.byteAt (s.pc.toNat + 1))) with
  | error e => simp only [decodeBytes, hd] at hbytes; cases hbytes
  | ok j => simp only [decodeBytes, hd] at hbytes; cases hbytes; rfl

/-- Settles O8: the fetch stops past memory, and inside it reads the word whose bytes these are. -/
theorem fetchAndDecodeErrors : Obligations.FetchAndDecodeErrors := by
  unfold Obligations.FetchAndDecodeErrors
  intro s
  refine ⟨fun hpc => step_of_fetch_error (fetch_of_gt hpc), fun w hpc hw hd => ?_⟩
  have hword : wordOfBytes (s.byteAt s.pc.toNat) (s.byteAt (s.pc.toNat + 1)) = w := by
    rw [← BitVec.toNat_inj, wordOfBytes_toNat, hw]
  exact step_of_decode_error (hword ▸ fetch_of_le hpc) hd

/-- A step completes or stops with an error of the running machine. -/
theorem step_outcome (s : State) :
    (∃ t, step s = .next t) ∨ ∃ f, step s = .fault f ∧ f ≠ .romTooBig ∧ f ≠ .romReadError := by
  cases hf : fetch s with
  | error f =>
    refine .inr ⟨f, step_of_fetch_error hf, ?_⟩
    rcases Nat.lt_or_ge 0xFFF (s.pc.toNat + 1) with hpc | hpc
    · rw [fetch_of_gt hpc] at hf; cases hf; exact ⟨nofun, nofun⟩
    · rw [fetch_of_le hpc] at hf; cases hf
  | ok w =>
    cases hd : decode w with
    | error e => exact .inr ⟨_, step_of_decode_error hf hd, nofun, nofun⟩
    | ok i =>
      rw [step_of_decode hf hd]
      rcases exec_stops i s with ⟨-, hnext⟩ | ⟨f, hstop, hexec⟩
      · exact .inl hnext
      · exact .inr ⟨f, hexec, stopOf_ne_rom hstop⟩

/-! ## The status -/

section
variable {s t : State}

theorem cycle_of_fault {f : Fault} (h : step s = .fault f) : cycle s = some (f.status, s) := by
  simp only [cycle, h]

theorem cycle_of_next (h : step s = .next t) : cycle s = some (if waiting s then .waiting else .success, t) := by
  simp only [cycle, h]

/-- The status of an error is the name of that error, and only the construction has the two of the ROM. -/
theorem Fault.status_of_ne_rom {f : Fault} (hbig : f ≠ .romTooBig) (hread : f ≠ .romReadError) :
    f.status ∉ [Status.success, Status.waiting, Status.invalidState, Status.invalidRegister, Status.romTooBig,
      Status.romReadError] := by
  cases f with
  | romTooBig => exact absurd rfl hbig
  | romReadError => exact absurd rfl hread
  | _ => simp [Fault.status]

/-- A cycle waits exactly at the word of a key wait, with no key pressed. -/
theorem waiting_iff : waiting s = true ↔
    ∃ w x, fetch s = .ok w ∧ decode w = .ok (.ldVxK x) ∧ lowestKey s = none := by
  constructor
  · intro h
    unfold waiting at h
    split at h
    · cases h
    · rename_i w hf
      split at h
      · rename_i x hd
        exact ⟨w, x, hf, hd, Option.isNone_iff_eq_none.1 h⟩
      · cases h
  · rintro ⟨w, x, hf, hd, hkey⟩
    simp only [waiting, hf, hd, hkey, Option.isNone_none]

/-- A wait is the same state again (R211). -/
theorem step_of_waiting (h : waiting s = true) : step s = .next s := by
  obtain ⟨w, x, hf, hd, hkey⟩ := waiting_iff.1 h
  rw [step_of_decode hf hd, exec_ldVxK_none s x hkey]

/-- What a cycle with each kind of status has done (R250, R251). -/
theorem cycle_cases {st : Status} (h : cycle s = some (st, t)) :
    (st = .success ∧ waiting s = false ∧ step s = .next t) ∨ (st = .waiting ∧ waiting s = true ∧ t = s) ∨
      (st ≠ .success ∧ st ≠ .waiting ∧ t = s) := by
  rcases step_outcome s with ⟨u, hstep⟩ | ⟨f, hstep, hbig, hread⟩
  · cases hwait : waiting s with
    | false =>
      rw [cycle_of_next hstep, hwait] at h
      cases h
      exact .inl ⟨rfl, rfl, hstep⟩
    | true =>
      rw [cycle_of_next (step_of_waiting hwait), hwait] at h
      cases h
      exact .inr (.inl ⟨rfl, rfl, rfl⟩)
  · have hstatus := Fault.status_of_ne_rom hbig hread
    rw [cycle_of_fault hstep] at h
    cases h
    exact .inr (.inr ⟨fun he => hstatus (by simp [he]), fun he => hstatus (by simp [he]), rfl⟩)

end

/-- Settles O10: a cycle that completes is a success or a wait, and one that stops has the status of its error. -/
theorem everyCycleReturnsAStatus : Obligations.EveryCycleReturnsAStatus := by
  unfold Obligations.EveryCycleReturnsAStatus
  intro s
  rcases step_outcome s with ⟨t, hstep⟩ | ⟨f, hstep, hbig, hread⟩
  · refine ⟨_, t, cycle_of_next hstep, ?_⟩
    cases waiting s <;> decide
  · refine ⟨f.status, s, cycle_of_fault hstep, fun hmem => Fault.status_of_ne_rom hbig hread ?_⟩
    exact List.mem_cons_of_mem _ (List.mem_cons_of_mem _ hmem)

/-- Settles O11: a wait and an error both give the state they found. -/
theorem noSuccessNoChange : Obligations.NoSuccessNoChange := by
  unfold Obligations.NoSuccessNoChange
  intro s t st hcycle hst
  rcases cycle_cases hcycle with ⟨hsuccess, -⟩ | ⟨-, -, hsame⟩ | ⟨-, -, hsame⟩
  · exact absurd hsuccess hst
  · exact hsame
  · exact hsame

end Sys2Proof.Machine
end

section
/-! PROOF. Control transfer, the call stack and the skips on registers and keys (spec/41_control_transfer.md R120 to R125,
spec/42_skips.md R143 to R147). Frames are joined from one lemma per update; a stack pointer in 0..15 is the entry it selects. -/
namespace Sys2Proof.Machine

/-! ## Frames -/

theorem ChangesOnly.of_subset {l l' : List Place} {s t : State} (h : ChangesOnly (· ∈ l) s t) (hsub : l ⊆ l') :
    ChangesOnly (· ∈ l') s t :=
  h.mono fun _ hr => hsub hr

/-- One change after another changes the places of both. -/
theorem ChangesOnly.append {l l' : List Place} {s t u : State} (h : ChangesOnly (· ∈ l) s t) (h' : ChangesOnly (· ∈ l') t u) :
    ChangesOnly (· ∈ l ++ l') s u :=
  (h.of_subset (List.subset_append_left l l')).trans (h'.of_subset (List.subset_append_right l l'))

theorem changesOnly_setSp (s : State) (b : Byte) : ChangesOnly (· ∈ [.sp]) s (s.setSp b) := by
  intro q hq
  cases q with
  | sp => exact absurd (List.mem_singleton_self _) hq
  -- Every other place is read through a field that setSp leaves alone.
  | _ => rfl

theorem changesOnly_setStackEntry (s : State) (k : Nibble) (w : Word) :
    ChangesOnly (· ∈ [.stack k]) s (s.setStackEntry k w) := by
  intro q hq
  cases q with
  | stack i =>
    have hne : i ≠ k := by rintro rfl; exact hq (List.mem_singleton_self _)
    simp only [Place.get, stackEntry_setStackEntry, if_neg hne]
  -- Every other place is read through a field that setStackEntry leaves alone.
  | _ => rfl

/-- A push or a pop touches pc, sp and the entry pushed. -/
theorem changesOnly_push (s : State) (sp : Byte) (k : Nibble) (entry pc : Word) :
    ChangesOnly (· ∈ [.pc, .sp, .stack k]) s (((s.setSp sp).setStackEntry k entry).setPc pc) :=
  (((changesOnly_setSp s sp).append (changesOnly_setStackEntry _ k entry)).append (changesOnly_setPc _ pc)).of_subset (by simp)

theorem changesOnly_pop (s : State) (sp : Byte) (pc : Word) : ChangesOnly (· ∈ [.pc, .sp]) s ((s.setSp sp).setPc pc) :=
  ((changesOnly_setSp s sp).append (changesOnly_setPc _ pc)).of_subset (by simp)

/-! ## Jumps -/

theorem setPc_self (s : State) : s.setPc s.pc = s := rfl

theorem exec_jp (nnn : Addr) (s : State) : exec (.jp nnn) s = .next (s.setPc (addrOperand nnn)) := rfl

theorem exec_jpV0 (nnn : Addr) (s : State) : exec (.jpV0 nnn) s = .next (s.setPc (offsetTarget s nnn)) := rfl

/-- The sum of a byte and an address fits a word: nothing is lost of the target (R125). -/
theorem offsetTarget_toNat (s : State) (nnn : Addr) : (offsetTarget s nnn).toNat = (s.v 0).toNat + nnn.toNat := by
  have hsum : (s.v 0).toNat + nnn.toNat < 2 ^ 16 := by have := (s.v 0).isLt; have := nnn.isLt; omega
  rw [offsetTarget, BitVec.toNat_add, addrOperand_toNat, BitVec.toNat_setWidth_of_le (by decide), Nat.mod_eq_of_lt hsum]

/-- Settles O12: the target is the address; of the addresses only 0xFFF leaves no room for a word. -/
theorem jumpGoesToItsAddress : Obligations.JumpGoesToItsAddress := by
  unfold Obligations.JumpGoesToItsAddress
  intro nnn s
  have hpc : (s.setPc (addrOperand nnn)).pc.toNat = nnn.toNat := addrOperand_toNat nnn
  have hlast : nnn = 0xFFF ↔ nnn.toNat = 0xFFF := by rw [← BitVec.toNat_inj]; rfl
  have hfetch (hne : nnn ≠ 0xFFF) : ∃ w, fetch (s.setPc (addrOperand nnn)) = .ok w :=
    ⟨_, fetch_of_le (by have := nnn.isLt; rw [ne_eq, hlast] at hne; omega)⟩
  refine ⟨decode_encode (.jp nnn), _, exec_jp nnn s, hpc, changesOnly_setPc s _, ⟨fun herror => ?_, ?_⟩, hfetch, ?_⟩
  · by_contra hne
    obtain ⟨w, hw⟩ := hfetch hne
    rw [hw] at herror; cases herror
  · rintro rfl
    exact fetch_of_gt (by rw [hpc]; decide)
  · intro hself
    rw [← BitVec.eq_of_toNat_eq (hself.trans (addrOperand_toNat nnn).symm), setPc_self]

/-- Settles O13: the sum fits a word. -/
theorem offsetJumpAddsV0 : Obligations.OffsetJumpAddsV0 := by
  unfold Obligations.OffsetJumpAddsV0
  intro nnn s
  exact ⟨decode_encode (.jpV0 nnn), _, exec_jpV0 nnn s, offsetTarget_toNat s nnn, changesOnly_setPc s _⟩

/-- Settles O18: the step writes pc the value it holds. -/
theorem selfJumpIsAFixedPoint : Obligations.SelfJumpIsAFixedPoint := by
  unfold Obligations.SelfJumpIsAFixedPoint
  intro s nnn hpc hfetch
  rw [step_of_decode hfetch (decode_encode (.jp nnn)), exec_jp, addrOperand, ← hpc, setPc_self]

/-! ## The call stack -/

section
variable {s : State}

theorem exec_call_of_range (nnn : Addr) (hlow : 0 ≤ s.sp.toInt) (hhigh : s.sp.toInt ≤ 14) : exec (.call nnn) s =
    .next (((s.setSp (s.sp + 1)).setStackEntry (stackIdx (s.sp + 1)) s.pc).setPc (addrOperand nnn)) := by
  rw [exec_call, if_pos ⟨hlow, hhigh⟩]

theorem exec_ret_of_range (hlow : 1 ≤ s.sp.toInt) (hhigh : s.sp.toInt ≤ 15) : exec .ret s =
    .next ((s.setSp (s.sp - 1)).setPc (s.stackEntry (stackIdx s.sp) + 2)) := by
  rw [exec_ret, if_pos ⟨hlow, hhigh⟩]

end

/-- The entry above the one a stack pointer below 15 selects. -/
theorem stackIdx_add_one (k : Nibble) : stackIdx (k.setWidth 8 + 1) = k + 1 := by revert k; decide

/-- Settles O14: the entry that the raised pointer selects is entry k + 1. -/
theorem callPushesItsOwnAddress : Obligations.CallPushesItsOwnAddress := by
  unfold Obligations.CallPushesItsOwnAddress
  intro nnn s k hk hsp
  have hint : s.sp.toInt = k.toNat := by rw [hsp, stackPtr_of_nibble]
  have hlow : 0 ≤ s.sp.toInt := by omega
  have hhigh : s.sp.toInt ≤ 14 := by
    have : k.toNat ≠ 15 := fun h => hk (BitVec.eq_of_toNat_eq h)
    omega
  have hidx : stackIdx (s.sp + 1) = k + 1 := by rw [hsp, stackIdx_add_one]
  refine ⟨decode_encode (.call nnn), _, exec_call_of_range nnn hlow hhigh, toInt_add_one hlow hhigh, ?_,
    addrOperand_toNat nnn, ?_⟩
  · rw [hidx, stackEntry_setPc, stackEntry_setStackEntry, if_pos rfl]
  · rw [hidx]
    exact changesOnly_push _ _ _ _ _

/-- Settles O15: the pointer k selects entry k, and lowering it writes no entry. -/
theorem returnPopsAndAdvances : Obligations.ReturnPopsAndAdvances := by
  unfold Obligations.ReturnPopsAndAdvances
  intro s k hk hsp
  have hint : s.sp.toInt = k.toNat := by rw [hsp, stackPtr_of_nibble]
  have hlow : 1 ≤ s.sp.toInt := by
    have : k.toNat ≠ 0 := fun h => hk (BitVec.eq_of_toNat_eq h)
    omega
  refine ⟨decode_encode .ret, _, exec_ret_of_range hlow (by omega), toInt_sub_one hlow, ?_, changesOnly_pop _ _ _⟩
  rw [hsp, stackIdx_of_nibble, pc_setPc]

/-- Settles O16: neither condition to complete holds there. -/
theorem stackPointerErrors : Obligations.StackPointerErrors := by
  unfold Obligations.StackPointerErrors
  intro nnn s
  refine ⟨fun hout => ⟨?_, ?_⟩, fun hempty => ?_, fun hfull => ?_⟩
  · rw [exec_ret, if_neg (by omega)]
  · rw [exec_call, if_neg (by omega)]
  · rw [exec_ret, if_neg (by rw [hempty]; decide)]
  · rw [exec_call, if_neg (by rw [hfull]; decide)]

/-- Settles O17: the RET finds sp one higher, and in the entry it selects the address of the CALL. -/
theorem returnResumesAfterTheCall : Obligations.ReturnResumesAfterTheCall := by
  unfold Obligations.ReturnResumesAfterTheCall
  intro nnn s pc hlow hhigh
  have hcall := exec_call_of_range nnn hlow (by omega)
  have hraised : (s.sp + 1).toInt = s.sp.toInt + 1 := toInt_add_one hlow (by omega)
  refine ⟨_, _, hcall, exec_ret_of_range ?_ ?_, ?_, ?_⟩
  · simp only [sp_setPc, sp_setStackEntry, sp_setSp]; omega
  · simp only [sp_setPc, sp_setStackEntry, sp_setSp]; omega
  · simp
  · simp

/-! ## Skips -/

section
variable (x y : Nibble) (s : State)

theorem exec_seReg : exec (.seReg x y) s = skipIf s (s.v x == s.v y) := rfl

theorem exec_sneReg : exec (.sneReg x y) s = skipIf s (s.v x != s.v y) := rfl

theorem exec_skp_skipOnKey : exec (.skp x) s = skipOnKey s x true := rfl

theorem exec_sknp_skipOnKey : exec (.sknp x) s = skipOnKey s x false := rfl

end

/-- A skip on a key looks at the key that Vx names. -/
theorem skipOnKey_of_key {x k : Nibble} {s : State} (h : s.v x = k.setWidth 8) (want : Bool) :
    skipOnKey s x want = skipIf s (s.pressed k == want) := by
  rw [skipOnKey, h, if_pos (isHexDigit_of_nibble k), hexDigit_of_nibble]

/-- Settles O20: SE skips on equal values and SNE on different ones; in both families the last nibble is to be 0. -/
theorem skipsOnRegisters : Obligations.SkipsOnRegisters := by
  unfold Obligations.SkipsOnRegisters
  intro x y s
  refine ⟨decode_encode (.seReg x y), decode_encode (.sneReg x y), fun n hn => ⟨?_, ?_⟩, ?_, ?_⟩
  · refine (illegalWordsAreExactlyThese (wordXY 0x5 x y n)).2 (.inr (.inl ⟨fieldOp_wordXY .., ?_⟩))
    rwa [fieldN_wordXY]
  · refine (illegalWordsAreExactlyThese (wordXY 0x9 x y n)).2 (.inr (.inr (.inr (.inl ⟨fieldOp_wordXY .., ?_⟩))))
    rwa [fieldN_wordXY]
  · have hcond : (s.v x == s.v y) = true ↔ (s.v x).toNat = (s.v y).toNat := by rw [beq_iff_eq, BitVec.toNat_inj]
    rw [exec_seReg]
    exact skipIf_spec s hcond
  · have hcond : (s.v x != s.v y) = true ↔ ¬(s.v x).toNat = (s.v y).toNat := by rw [bne_iff_ne, ne_eq, BitVec.toNat_inj]
    rw [exec_sneReg]
    simpa only [ite_not] using skipIf_spec s hcond

/-- Settles O21: SKP skips when the key is pressed, SKNP when it is not. -/
theorem skipsOnKeys : Obligations.SkipsOnKeys := by
  unfold Obligations.SkipsOnKeys
  intro x k s hkey
  refine ⟨decode_encode (.skp x), decode_encode (.sknp x), ?_, ?_⟩
  · have hcond : (s.pressed k == true) = true ↔ s.pressed k = true := by rw [beq_iff_eq]
    rw [exec_skp_skipOnKey, skipOnKey_of_key hkey]
    exact skipIf_spec s hcond
  · have hcond : (s.pressed k == false) = true ↔ ¬s.pressed k = true := by rw [beq_iff_eq, Bool.not_eq_true]
    rw [exec_sknp_skipOnKey, skipOnKey_of_key hkey]
    simpa only [ite_not] using skipIf_spec s hcond

/-- Settles O22: such a value fails the one condition of each of the three. -/
theorem valueAboveFErrors : Obligations.ValueAboveFErrors := by
  unfold Obligations.ValueAboveFErrors
  intro x s habove
  refine ⟨?_, ?_, ?_⟩
  · rw [exec_skp, if_neg (by omega)]
  · rw [exec_sknp, if_neg (by omega)]
  · rw [exec_ldF, if_neg (by omega)]

end Sys2Proof.Machine
end

section
/-! PROOF. The ALU with a flag, OR, RND and the sums into I (spec/43_register_alu.md R165 to R178, spec/44_index_memory.md R192,
R193). An instruction with a flag ends in writeRegFlag: writeRegFlag_spec gives its whole effect from the number its result is
and the number its flag is. -/
namespace Sys2Proof.Machine

/-! ## The end of an instruction with a flag -/

/-- The flag remains when the destination is VF itself (R161, D11). -/
theorem writeRegFlag_spec (s : State) (x : Nibble) {b : Byte} {f : Bool} {result flag : Nat} (hb : b.toNat = result)
    (hf : (flagByte f).toNat = flag) : ∃ t, writeRegFlag s x b f = .next t ∧ (x ≠ 0xF → (t.v x).toNat = result) ∧
      (t.v 0xF).toNat = flag ∧ t.pc = s.pc + 2 ∧ ChangesOnly (· ∈ [.v x, .v 0xF, .pc]) s t := by
  refine ⟨_, writeRegFlag_eq s x b f, fun hx => ?_, ?_, pc_setPc _ _, ?_⟩
  · rw [v_setPc, v_setV, if_neg (show x ≠ flagIdx from hx), v_setV, if_pos rfl, hb]
  · rw [v_setPc, v_setV, if_pos (show (0xF : Nibble) = flagIdx from rfl), hf]
  · exact ((changesOnly_setV s x b).append (changesOnly_setV _ flagIdx (flagByte f))).append (changesOnly_setPc _ _)

section
variable (a b : Byte)

theorem flagByte_carryOut : (flagByte (carryOut a b)).toNat = if 255 < a.toNat + b.toNat then 1 else 0 := by
  simp only [flagByte_toNat, carryOut, decide_eq_true_eq]

theorem flagByte_noBorrow : (flagByte (noBorrow a b)).toNat = if a.toNat ≥ b.toNat then 1 else 0 := by
  simp only [flagByte_toNat, noBorrow, decide_eq_true_eq, ge_iff_le]

theorem flagByte_shiftOutRight : (flagByte (shiftOutRight a)).toNat = a.toNat % 2 := by
  simp only [flagByte_toNat, shiftOutRight, BitVec.getLsbD, Nat.testBit_eq_decide_div_mod_eq, decide_eq_true_eq]
  split <;> omega

theorem flagByte_shiftOutLeft : (flagByte (shiftOutLeft a)).toNat = a.toNat / 128 := by
  have := a.isLt
  simp only [flagByte_toNat, shiftOutLeft, BitVec.getLsbD, Nat.testBit_eq_decide_div_mod_eq, decide_eq_true_eq]
  split <;> omega

/-- A difference of bytes is the difference modulo 256. -/
theorem sub_toNat : (a - b).toNat = (256 + a.toNat - b.toNat) % 256 := by
  have := b.isLt
  rw [BitVec.toNat_sub]
  congr 1
  omega

theorem shr_one_toNat : (a >>> 1).toNat = a.toNat / 2 := by
  rw [BitVec.toNat_ushiftRight, Nat.shiftRight_eq_div_pow]

theorem shl_one_toNat : (a <<< 1).toNat = a.toNat * 2 % 256 := by
  rw [BitVec.toNat_shiftLeft, Nat.shiftLeft_eq]

end

/-! ## The meanings -/

section
variable (x y : Nibble) (kk : Byte) (s : State)

theorem exec_orReg : exec (.orReg x y) s = writeReg s x (s.v x ||| s.v y) := rfl

theorem exec_addReg : exec (.addReg x y) s = writeRegFlag s x (s.v x + s.v y) (carryOut (s.v x) (s.v y)) := rfl

theorem exec_subReg : exec (.subReg x y) s = writeRegFlag s x (s.v x - s.v y) (noBorrow (s.v x) (s.v y)) := rfl

theorem exec_subnReg : exec (.subnReg x y) s = writeRegFlag s x (s.v y - s.v x) (noBorrow (s.v y) (s.v x)) := rfl

theorem exec_shr : exec (.shr x) s = writeRegFlag s x (s.v x >>> 1) (shiftOutRight (s.v x)) := rfl

theorem exec_shl : exec (.shl x) s = writeRegFlag s x (s.v x <<< 1) (shiftOutLeft (s.v x)) := rfl

theorem exec_rnd : exec (.rnd x kk) s =
    writeReg (s.setDraws (s.draws + 1)) x (Config.randomByte s.draws &&& kk) := rfl

theorem exec_addI : exec (.addI x) s = done s (s.setI (s.I + (s.v x).setWidth 16)) .seq := rfl

end

/-! ## The ALU -/

/-- Settles O26: writeReg leaves VF alone unless it is the destination. -/
theorem orLeavesVFAlone : Obligations.OrLeavesVFAlone := by
  unfold Obligations.OrLeavesVFAlone
  intro x y s
  obtain ⟨t, hnext, hv, hpc, hframe⟩ := writeReg_spec s x (s.v x ||| s.v y)
  refine ⟨decode_encode (.orReg x y), t, (exec_orReg x y s).trans hnext, fun j => ?_, hpc, hframe⟩
  rw [hv, BitVec.getLsbD_or]

/-- Settles O27: the result is the sum modulo 256, the flag that the exact sum exceeds 255. -/
theorem addSetsCarry : Obligations.AddSetsCarry := by
  unfold Obligations.AddSetsCarry
  intro x y s
  refine ⟨decode_encode (.addReg x y), ?_⟩
  rw [exec_addReg]
  exact writeRegFlag_spec s x (BitVec.toNat_add _ _) (flagByte_carryOut _ _)

/-- Settles O28: SUBN is SUB with its operands changed over. -/
theorem subtractionsSetNoBorrow : Obligations.SubtractionsSetNoBorrow := by
  unfold Obligations.SubtractionsSetNoBorrow
  intro x y s
  refine ⟨decode_encode (.subReg x y), decode_encode (.subnReg x y), ?_, ?_⟩
  · rw [exec_subReg]
    exact writeRegFlag_spec s x (sub_toNat _ _) (flagByte_noBorrow _ _)
  · rw [exec_subnReg]
    exact writeRegFlag_spec s x (sub_toNat _ _) (flagByte_noBorrow _ _)

/-- Settles O29: that any Y decodes is the ignored field of R76. -/
theorem shiftsSetTheBitShiftedOut : Obligations.ShiftsSetTheBitShiftedOut := by
  unfold Obligations.ShiftsSetTheBitShiftedOut
  intro x y s
  obtain ⟨hshr, hshl⟩ := onlyTheShiftsIgnoreAField.1 x y
  refine ⟨hshr, hshl, ?_, ?_⟩
  · rw [exec_shr]
    exact writeRegFlag_spec s x (shr_one_toNat _) (flagByte_shiftOutRight _)
  · rw [exec_shl]
    exact writeRegFlag_spec s x (shl_one_toNat _) (flagByte_shiftOutLeft _)

/-- The model's counter of draws is a place of its own. -/
theorem changesOnly_setDraws (s : State) (n : Nat) : ChangesOnly (· ∈ [.draws]) s (s.setDraws n) := by
  intro q hq
  cases q with
  | draws => exact absurd (List.mem_singleton_self _) hq
  -- Every other place is read through a field that setDraws leaves alone.
  | _ => rfl

/-- Settles O30: the draw is numbered by the counter before it is advanced, and writeReg does the rest. -/
theorem randomIsMasked : Obligations.RandomIsMasked := by
  unfold Obligations.RandomIsMasked
  intro x kk s
  obtain ⟨t, hnext, hv, hpc, hframe⟩ := writeReg_spec (s.setDraws (s.draws + 1)) x (Config.randomByte s.draws &&& kk)
  refine ⟨decode_encode (.rnd x kk), t, (exec_rnd x kk s).trans hnext, fun j => ?_, ?_, hpc, ?_⟩
  · rw [hv, BitVec.getLsbD_and]
  · exact hframe.draws_eq (by simp)
  · exact ((changesOnly_setDraws s _).append hframe).of_subset (by simp)

/-! ## Sums into I -/

/-- Settles O32: a byte keeps its value when it is widened to a word. -/
theorem addIndexWrapsWithoutFlag : Obligations.AddIndexWrapsWithoutFlag := by
  unfold Obligations.AddIndexWrapsWithoutFlag
  intro x s
  obtain ⟨t, hnext, hindex, hpc, hframe⟩ := setIndex_spec s (s.I + (s.v x).setWidth 16)
  refine ⟨decode_encode (.addI x), t, (exec_addI x s).trans hnext, ?_, hpc, hframe⟩
  rw [hindex, BitVec.toNat_add, BitVec.toNat_setWidth_of_le (by decide)]

/-- The last glyph lies inside the reserved area, so its address is no sum that wraps (D15). -/
theorem glyphAddr_toNat {v : Byte} (h : v.toNat ≤ 0xF) : (glyphAddr v).toNat = fontBase + 5 * v.toNat := by
  have hfont := font_in_reserved_area
  rw [glyphAddr, BitVec.toNat_ofNat, Config.glyphSize, Nat.mod_eq_of_lt (by omega)]

/-- Settles O33: a digit passes the check, and I is written the address of its glyph. -/
theorem loadFontPointsAtTheGlyph : Obligations.LoadFontPointsAtTheGlyph := by
  unfold Obligations.LoadFontPointsAtTheGlyph
  intro x d s hdigit
  have hvalue : (s.v x).toNat = d.toNat := by rw [hdigit, BitVec.toNat_setWidth_of_le (by decide)]
  have hle : (s.v x).toNat ≤ 0xF := by have := d.isLt; omega
  obtain ⟨t, hnext, hindex, hpc, hframe⟩ := setIndex_spec s (glyphAddr (s.v x))
  refine ⟨decode_encode (.ldF x), t, ?_, ?_, hpc, hframe⟩
  · rw [exec_ldF, if_pos hle]
    exact hnext
  · rw [hindex, glyphAddr_toNat hle, hvalue]

end Sys2Proof.Machine
end

section
/-! PROOF. Loads and stores through I (spec/44_index_memory.md R194 to R196, spec/20_memory.md R53 to R65). A store is known by
what it reads back (Memory.read_store) and by what it touches (changesOnly_store_next); a block load by the registers it
fills. A canonical memory is the list of the addresses that differ from reset, each with the byte read there. -/
namespace Sys2Proof.Machine

/-! ## Stores -/

/-- An instruction that stores bytes and moves on touches these bytes and pc alone. -/
theorem changesOnly_store_next (s : State) (a : Nat) (bs : List Byte) (w : Word) :
    ChangesOnly (fun q => q = .pc ∨ ∃ b, q = .byte b ∧ a ≤ b ∧ b < a + bs.length) s
      ((s.setMem (s.mem.store a bs)).setPc w) :=
  ((changesOnly_store s a bs).mono fun _ => Or.inr).trans ((changesOnly_setPc _ w).mono (by simp))

theorem Memory.read_store_add (m : Memory) (a : Nat) {k : Nat} {bs : List Byte} (h : k < bs.length) :
    (m.store a bs).read (a + k) = bs.getD k 0 := by
  rw [Memory.read_store_at _ _ _ _ h, List.getD_eq_getElem _ _ h]

/-- The digits of a byte, hundreds first, are its BCD form (R194). -/
theorem bcd_digits (v : Byte) :
    100 * ((bcdBytes v).getD 0 0).toNat + 10 * ((bcdBytes v).getD 1 0).toNat + ((bcdBytes v).getD 2 0).toNat = v.toNat ∧
      ((bcdBytes v).getD 1 0).toNat ≤ 9 ∧ ((bcdBytes v).getD 2 0).toNat ≤ 9 := by
  have := v.isLt
  simp only [bcdBytes, List.getD_cons_zero, List.getD_cons_succ, BitVec.toNat_ofNat]
  omega

/-- Settles O34: the three bytes read back are the BCD form of Vx. -/
theorem bcdStoresThreeDigits : Obligations.BcdStoresThreeDigits := by
  unfold Obligations.BcdStoresThreeDigits
  intro x s hI
  have hread (k : Nat) (hk : k < 3) :
      (s.mem.store s.I.toNat (bcdBytes (s.v x))).read (s.I.toNat + k) = (bcdBytes (s.v x)).getD k 0 :=
    Memory.read_store_add _ _ hk
  have hfirst := hread 0 (by decide)
  rw [Nat.add_zero] at hfirst
  obtain ⟨hsum, htens, hones⟩ := bcd_digits (s.v x)
  refine ⟨decode_encode (.ldB x), _, (exec_ldB s x).trans (if_pos hI), ?_⟩
  simp only [byteAt_setPc, byteAt_setMem, hfirst, hread 1 (by decide), hread 2 (by decide)]
  exact ⟨hsum, htens, hones, pc_setPc _ _, changesOnly_store_next s s.I.toNat (bcdBytes (s.v x)) (s.pc + 2)⟩

/-- Settles O35: the k-th byte of the block stored is Vk. -/
theorem storeRegistersToMemory : Obligations.StoreRegistersToMemory := by
  unfold Obligations.StoreRegistersToMemory
  intro x s hI
  have hlength := regBlock_length s x
  refine ⟨decode_encode (.stRegs x), _, (exec_stRegs s x).trans (if_pos hI), fun k hk => ?_, pc_setPc _ _, ?_⟩
  · rw [byteAt_setPc, byteAt_setMem, Memory.read_store_add _ _ (by omega), regBlock_getD s x k hk]
  · refine (changesOnly_store_next s _ _ _).mono fun q hq => hq.imp_right fun ⟨b, hb, hge, hlt⟩ => ⟨b, hb, hge, ?_⟩
    omega

/-! ## Loads -/

/-- A block load of the first n registers touches no other place. -/
theorem changesOnly_setRegs_loadBlock (s : State) (m : Memory) (a n : Nat) :
    ChangesOnly (fun q => ∃ k : Nibble, q = .v k ∧ k.toNat < n) s (s.setRegs (loadBlock m a s.V n)) := by
  intro q hq
  cases q with
  | v k =>
    have hout : ¬k.toNat < n := fun hlt => hq ⟨k, rfl, hlt⟩
    simp only [Place.get, v_setRegs, loadBlock_get, if_neg hout]
    rfl
  -- Every other place is read through a field that setRegs leaves alone.
  | _ => rfl

/-- An instruction that loads V0..Vx and moves on touches these registers and pc alone. -/
theorem changesOnly_loadBlock_next (s : State) (m : Memory) (a : Nat) (x : Nibble) (w : Word) :
    ChangesOnly (fun q => q = .pc ∨ ∃ k : Nibble, q = .v k ∧ k.toNat ≤ x.toNat) s
      ((s.setRegs (loadBlock m a s.V (x.toNat + 1))).setPc w) :=
  ((changesOnly_setRegs_loadBlock s m a (x.toNat + 1)).mono fun _ ⟨k, hk, hlt⟩ => .inr ⟨k, hk, Nat.le_of_lt_succ hlt⟩).trans
    ((changesOnly_setPc _ w).mono (by simp))

/-- Settles O36: the registers up to Vx are those the block load fills. -/
theorem loadRegistersFromMemory : Obligations.LoadRegistersFromMemory := by
  unfold Obligations.LoadRegistersFromMemory
  intro x s hI
  refine ⟨decode_encode (.ldRegs x), _, (exec_ldRegs s x).trans (if_pos hI), fun k hk => ?_, pc_setPc _ _,
    changesOnly_loadBlock_next s _ _ x _⟩
  rw [v_setPc, v_setRegs, loadBlock_get, if_pos (by omega)]
  rfl

/-! ## Loads and stores together -/

/-- Settles O37: the one condition to complete fails. -/
theorem accessPastMemoryErrors : Obligations.AccessPastMemoryErrors := by
  unfold Obligations.AccessPastMemoryErrors
  intro x y n s
  refine ⟨fun hpast => ?_, fun hpast => ⟨?_, ?_⟩, fun hn hpast => ?_⟩
  · rw [exec_ldB, if_neg (by omega)]
  · rw [exec_stRegs, if_neg (by omega)]
  · rw [exec_ldRegs, if_neg (by omega)]
  · have hrows : n.toNat ≠ 0 := fun h => hn (BitVec.eq_of_toNat_eq h)
    rw [exec_drw, if_neg (by omega)]

/-- Settles O38: the store leaves I as it is, so the load reads the bytes it stored. -/
theorem storedRegistersLoadBack : Obligations.StoredRegistersLoadBack := by
  unfold Obligations.StoredRegistersLoadBack
  intro x s regs hI
  obtain ⟨-, t, hstore, hbyte, -, hframe⟩ := storeRegistersToMemory x s hI
  have hindex : (t.setRegs regs).I = s.I := hframe.I_eq (by simp)
  obtain ⟨-, u, hload, hv, -, hframe'⟩ := loadRegistersFromMemory x (t.setRegs regs) (by rwa [hindex])
  refine ⟨t, u, hstore, hload, fun k => ?_⟩
  by_cases hk : k.toNat ≤ x.toNat
  · rw [if_pos hk, hv k hk, hindex, byteAt_setRegs, hbyte k hk]
  · rw [if_neg hk, hframe'.v_eq k (by simpa using hk), v_setRegs]

/-- Settles O39: both bytes of the word lie in the block stored. -/
theorem fetchSeesTheStore : Obligations.FetchSeesTheStore := by
  unfold Obligations.FetchSeesTheStore
  intro x k s pc hI hk hpc
  obtain ⟨-, t, hstore, hbyte, -, -⟩ := storeRegistersToMemory x s hI
  have hnext : (k + 1).toNat = k.toNat + 1 := by
    have := x.isLt
    rw [BitVec.toNat_add]
    exact Nat.mod_eq_of_lt (show k.toNat + 1 < 2 ^ 4 by omega)
  refine ⟨t, hstore, ?_⟩
  rw [fetch_of_le (by rw [pc_setPc]; omega), pc_setPc, byteAt_setPc, byteAt_setPc, hpc, hbyte k (by omega),
    Nat.add_assoc, ← hnext, hbyte (k + 1) (by omega)]
  rfl

/-! ## The canonical form -/

/-- The cell of an address is what is read there, where the addresses rise strictly. -/
theorem Memory.read_of_mem {m : Memory} (h : (m.map (·.1)).Pairwise (· < ·)) {c : Host.Cell} (hc : c ∈ m) :
    m.read c.1 = c.2 := by
  induction m with
  | nil => cases hc
  | cons d m ih =>
    obtain ⟨hhead, htail⟩ := List.pairwise_cons.1 h
    rcases List.mem_cons.1 hc with rfl | hc
    · simp only [Memory.read, if_pos]
    · have hne : d.1 ≠ c.1 := Nat.ne_of_lt (hhead c.1 (List.mem_map_of_mem hc))
      simp only [Memory.read, if_neg hne, ih htail hc]

/-- An address without a cell reads as at reset. -/
theorem Memory.read_of_not_mem {m : Memory} {a : Nat} (h : a ∉ m.map (·.1)) : m.read a = resetByte a := by
  induction m with
  | nil => rfl
  | cons d m ih =>
    simp only [List.map_cons, List.mem_cons, not_or] at h
    simp only [Memory.read, if_neg (Ne.symm h.1), ih h.2]

/-- The addresses listed in a canonical memory are those that differ from reset. -/
theorem Memory.mem_addresses_iff {m : Memory} (h : m.wf) (a : Nat) : a ∈ m.map (·.1) ↔ m.read a ≠ resetByte a := by
  constructor
  · intro ha
    obtain ⟨c, hc, rfl⟩ := List.mem_map.1 ha
    rw [Memory.read_of_mem h.1 hc]
    exact (h.2 c hc).2
  · intro hne
    by_contra ha
    exact hne (Memory.read_of_not_mem ha)

/-- A canonical memory is its addresses, each with the byte read there. -/
theorem Memory.eq_map_read {m : Memory} (h : m.wf) : m = (m.map (·.1)).map fun a => (a, m.read a) := by
  rw [List.map_map]
  refine (List.map_id m).symm.trans (List.map_congr_left fun c hc => ?_)
  exact Prod.ext rfl (Memory.read_of_mem h.1 hc).symm

/-- Settles O40: memories that read alike list the same addresses, in rising order, with the same bytes. -/
theorem canonicalMemoryIsUnique : Obligations.CanonicalMemoryIsUnique := by
  unfold Obligations.CanonicalMemoryIsUnique
  intro m m' hwf hwf' hread
  have haddresses : m.map (·.1) = m'.map (·.1) :=
    hwf.1.eq_of_mem_iff hwf'.1 fun a => by
      rw [Memory.mem_addresses_iff hwf, Memory.mem_addresses_iff hwf', hread]
  rw [Memory.eq_map_read hwf, Memory.eq_map_read hwf', ← haddresses]
  exact List.map_congr_left fun a _ => by rw [hread a]

end Sys2Proof.Machine
end

section
/-! PROOF. The key wait, the host's tick and the reset values (spec/45_timers_keys.md R211, R212, spec/60_exceptions.md R262,
spec/10_state.md R40). -/
namespace Sys2Proof.Machine

/-! ## The key wait -/

/-- Settles O42: the lowest pressed key is the one below which none is pressed. -/
theorem keyWaitTakesTheLowestKey : Obligations.KeyWaitTakesTheLowestKey := by
  unfold Obligations.KeyWaitTakesTheLowestKey
  intro x k s hk hlow
  obtain ⟨t, hnext, hv, hpc, hframe⟩ := writeReg_spec s x (k.setWidth 8)
  refine ⟨decode_encode (.ldVxK x), t, (exec_ldVxK_some s x (lowestKey_eq_some.2 ⟨hk, hlow⟩)).trans hnext, ?_, hpc, hframe⟩
  rw [hv, BitVec.toNat_setWidth_of_le (by decide)]

/-- Settles O43: no key is the lowest, so the cycle waits. -/
theorem keyWaitWaits : Obligations.KeyWaitWaits := by
  unfold Obligations.KeyWaitWaits
  intro x s hnone
  have hkey : lowestKey s = none := lowestKey_eq_none.2 hnone
  refine ⟨exec_ldVxK_none s x hkey, fun hfetch => ?_⟩
  have hwait : waiting s = true := waiting_iff.2 ⟨_, x, hfetch, decode_encode (.ldVxK x), hkey⟩
  rw [cycle_of_next (step_of_waiting hwait), hwait, if_pos rfl]

/-! ## The tick -/

/-- A timer at 0 stays there (D22), as a difference of naturals does. -/
theorem tickTimer_toNat (b : Byte) : (tickTimer b).toNat = b.toNat - 1 := by
  unfold tickTimer
  split
  · next h => rw [h]; rfl
  · next h =>
    have hpos : b.toNat ≠ 0 := fun h0 => h (BitVec.eq_of_toNat_eq h0)
    rw [sub_toNat, show (1 : Byte).toNat = 1 from rfl]
    have := b.isLt
    omega

/-- Settles O44: each timer is written its own tick. -/
theorem tickStopsAtZero : Obligations.TickStopsAtZero := by
  unfold Obligations.TickStopsAtZero
  intro s
  exact ⟨tickTimer_toNat s.dt, tickTimer_toNat s.st, (changesOnly_setDt s _).append (changesOnly_setSt _ _)⟩

/-! ## Reset -/

/-- A vector of one value holds it at every index. -/
theorem v_reset (x : Nibble) : State.reset.v x = 0 := Vector.getElem_replicate _

theorem stackEntry_reset (k : Nibble) : State.reset.stackEntry k = 0 := Vector.getElem_replicate _

theorem pressed_reset (k : Nibble) : State.reset.pressed k = false := Vector.getElem_replicate _

/-- Every byte from FONT_BASE on is the font's, or 0 past its end. -/
theorem byteAt_reset_font (k : Nat) : State.reset.byteAt (fontBase + k) = fontImage.getD k 0 := by
  change resetByte (fontBase + k) = _
  rw [resetByte, if_pos (Nat.le_add_right _ _), Nat.add_sub_cancel_left]

theorem byteAt_reset_below_font {a : Nat} (h : a < fontBase) : State.reset.byteAt a = 0 := by
  change resetByte a = 0
  rw [resetByte, if_neg (Nat.not_le.2 h)]

/-- Settles O56: memory has no cell at reset, so a byte is the font's or 0. -/
theorem resetValues : Obligations.ResetValues := by
  unfold Obligations.ResetValues
  refine ⟨rfl, rfl, rfl, rfl, rfl, rfl, v_reset, stackEntry_reset, pressed_reset, pixel_blank, fontImage_length,
    font_in_reserved_area, fun k _ => byteAt_reset_font k, fun a ha => ?_⟩
  rcases ha with hbelow | habove
  · exact byteAt_reset_below_font hbelow
  · exact byteAt_reset_above_font habove

end Sys2Proof.Machine
end

section
/-! PROOF. Where a run stands (spec/70_reset_and_hazards.md R295, R296). Three facts about a run hold at its start and after every
event (RunSound), so they hold after every list of events; what the statement says of a run is read off them. -/
namespace Sys2Proof.Machine

/-- What the status of a run says of its state: the END is a self-jump and no other status is; an error is the cycle's own; a
wait is at the word of a key wait. -/
structure RunSound (r : Run) : Prop where
  ended_iff : r.status = .ended ↔ atSelfJump r.state = true
  faulted {st : Status} : r.status = .faulted st → st ≠ .success ∧ st ≠ .waiting ∧ cycle r.state = some (st, r.state)
  waiting : r.status = .waiting → ∃ x : Nibble, fetch r.state = .ok (wordXK 0xF x 0x0A)

/-- The step at a self-jump is a success that gives the same state. -/
theorem step_of_atSelfJump {s : State} (h : atSelfJump s = true) : step s = .next s := by
  obtain ⟨nnn, hpc, hfetch⟩ := atSelfJump_iff.1 h
  exact selfJumpIsAFixedPoint s nnn hpc hfetch

/-- A cycle that returns an error is at no self-jump. -/
theorem atSelfJump_of_error {s t : State} {st : Status} (hcycle : cycle s = some (st, t)) (hs : st ≠ .success)
    (hw : st ≠ .waiting) : atSelfJump s = false := by
  by_contra hjump
  rw [cycle_of_next (step_of_atSelfJump (eq_true_of_ne_false hjump))] at hcycle
  cases hwait : waiting s <;> rw [hwait] at hcycle <;> cases hcycle
  · exact hs rfl
  · exact hw rfl

/-- A waiting cycle is at a word FX0A. -/
theorem fetch_of_waiting {s : State} (h : waiting s = true) : ∃ x : Nibble, fetch s = .ok (wordXK 0xF x 0x0A) := by
  obtain ⟨w, x, hfetch, hdecode, -⟩ := waiting_iff.1 h
  have hw : w = encode (.ldVxK x) := eq_encode_of_decode hdecode (by simp)
  exact ⟨x, hfetch.trans (congrArg _ hw)⟩

/-- A word decodes to one instruction, so a wait is at no self-jump. -/
theorem atSelfJump_of_waiting {s : State} (h : waiting s = true) : atSelfJump s = false := by
  by_contra hjump
  obtain ⟨w, x, hfetch, hdecode, -⟩ := waiting_iff.1 h
  obtain ⟨nnn, -, hfetch'⟩ := atSelfJump_iff.1 (eq_true_of_ne_false hjump)
  obtain rfl : w = wordA 0x1 nnn := Except.ok.inj (hfetch.symm.trans hfetch')
  exact nomatch Except.ok.inj (hdecode.symm.trans (decode_encode (.jp nnn)))

theorem runStatusAt_eq_ended {other : RunStatus} {t : State} (h : other ≠ .ended) :
    runStatusAt other t = .ended ↔ atSelfJump t = true := by
  unfold runStatusAt
  split <;> simp [*]

/-- A status that is neither of the end is the one the run has away from a self-jump. -/
theorem eq_of_runStatusAt {other st : RunStatus} {t : State} (h : runStatusAt other t = st) (hst : st ≠ .ended) :
    other = st := by
  unfold runStatusAt at h
  split at h
  · exact absurd h.symm hst
  · exact h

theorem runSound_start (s : State) : RunSound (runStart s) where
  ended_iff := runStatusAt_eq_ended nofun
  faulted h := by cases eq_of_runStatusAt h nofun
  waiting h := by cases eq_of_runStatusAt h nofun

/-- A host action makes and unmakes no word to fetch, and no action is taken once a run is over. -/
theorem RunSound.host {r : Run} (h : RunSound r) (hover : r.status.isOver = false) (a : HostAction) :
    RunSound { r with state := hostAct r.state a } where
  ended_iff := by simpa using h.ended_iff
  faulted hst := by rw [show r.status = _ from hst] at hover; cases hover
  waiting hst := by simpa using h.waiting hst

/-- A cycle ends a run at a self-jump or an error, and makes it wait at a key wait. -/
theorem RunSound.cycle {r : Run} {st : Status} {t : State} (hcycle : cycle r.state = some (st, t)) :
    RunSound { status := runStatusAfter t st, state := t } := by
  rcases cycle_cases hcycle with ⟨rfl, -, -⟩ | ⟨rfl, hwait, rfl⟩ | ⟨hs, hw, rfl⟩
  · exact runSound_start t
  · refine ⟨runStatusAt_eq_ended nofun, fun hst => ?_, fun _ => fetch_of_waiting hwait⟩
    cases eq_of_runStatusAt hst nofun
  · rw [runStatusAfter_error _ hs hw]
    refine ⟨?_, fun hst => ?_, nofun⟩
    · simp [atSelfJump_of_error hcycle hs hw]
    · cases hst
      exact ⟨hs, hw, hcycle⟩

/-- Every event leads to a run, and its status is as sound as before. -/
theorem runSound_event {r : Run} (h : RunSound r) (e : RunEvent) : ∃ r', runEvent r e = some r' ∧ RunSound r' := by
  cases hover : r.status.isOver with
  | true => exact ⟨r, runEvent_of_over hover e, h⟩
  | false =>
    cases e with
    | host a => exact ⟨_, runEvent_host hover a, h.host hover a⟩
    | cycle =>
      obtain ⟨st, t, hcycle, -⟩ := everyCycleReturnsAStatus r.state
      exact ⟨_, runEvent_cycle hover hcycle, RunSound.cycle hcycle⟩

theorem runSound_events {r : Run} (h : RunSound r) (es : List RunEvent) :
    ∃ r', runEvents r es = some r' ∧ RunSound r' := by
  induction es generalizing r with
  | nil => exact ⟨r, rfl, h⟩
  | cons e es ih =>
    obtain ⟨r', hevent, hsound⟩ := runSound_event h e
    obtain ⟨r'', hevents, hsound'⟩ := ih hsound
    exact ⟨r'', by rw [runEvents_cons, hevent, Option.bind_some, hevents], hsound'⟩

/-- Settles O58: every run from any state is sound. -/
theorem runStatusSaysWhereARunStands : Obligations.RunStatusSaysWhereARunStands := by
  unfold Obligations.RunStatusSaysWhereARunStands
  intro s es
  obtain ⟨r, hevents, hended, hfaulted, hwaiting⟩ := runSound_events (runSound_start s) es
  exact ⟨r, hevents, hended.trans atSelfJump_iff, fun hst => step_of_atSelfJump (hended.1 hst), fun st => hfaulted, hwaiting⟩

/-! ## The end of a run -/

theorem runEvents_of_over {r : Run} (h : r.status.isOver = true) (es : List RunEvent) : runEvents r es = some r := by
  induction es with
  | nil => rfl
  | cons e es ih => rw [runEvents_cons, runEvent_of_over h, Option.bind_some, ih]

/-- A run that is not over goes on from where a cycle leaves it. -/
theorem runEvents_cycle {r : Run} {st : Status} {t : State} (hover : r.status.isOver = false)
    (hcycle : cycle r.state = some (st, t)) (more : List RunEvent) :
    runEvents r (.cycle :: more) = runEvents ⟨runStatusAfter t st, t⟩ more := by
  rw [runEvents_cons, runEvent_cycle hover hcycle, Option.bind_some]

/-- Settles O59: one cycle decides the status, and a run that is over stays. -/
theorem runEndsAtTheFirstErrorOrSelfJump : Obligations.RunEndsAtTheFirstErrorOrSelfJump := by
  unfold Obligations.RunEndsAtTheFirstErrorOrSelfJump
  intro r more
  refine ⟨fun hover => runEvents_of_over hover more, fun st t hover hcycle => ?_⟩
  rw [runEvents_cycle hover hcycle]
  refine ⟨fun hs hw => ?_, ?_, ?_, ?_⟩
  · rw [runStatusAfter_error t hs hw, noSuccessNoChange _ _ _ hcycle hs]
    exact runEvents_of_over rfl more
  · rintro rfl hjump
    rw [runStatusAfter, runStatusAt, hjump, if_pos rfl]
    exact runEvents_of_over rfl more
  · rintro rfl hjump
    simp only [runStatusAfter, runStatusAt, hjump, Bool.false_eq_true, if_false]
  · rintro rfl
    obtain ⟨hsuccess, -⟩ | ⟨-, hwait, rfl⟩ | ⟨-, hne, -⟩ := cycle_cases hcycle
    · cases hsuccess
    · simp only [runStatusAfter, runStatusAt, atSelfJump_of_waiting hwait, Bool.false_eq_true, if_false]
    · exact absurd rfl hne

end Sys2Proof.Machine
end

section
/-! PROOF. DRW (spec/46_display.md R232 to R234). A draw is the XOR with the sprite's mask on the display (exec_drw_mask); the mask
is the sprite's bits, each at its wrapped pixel (mask_at, of_mask). -/
namespace Sys2Proof.Machine

/-! ## The mask of a sprite -/

/-- The pixels that a DRW Vx, Vy of n rows meets with a set sprite bit. -/
def spriteMask (s : State) (vx vy n : Nibble) (x : Fin 64) (y : Fin 32) : Bool :=
  spriteCovers (s.v vx) (s.v vy) (s.mem.load s.I.toNat n.toNat) x y

section
variable {s t : State} {vx vy n : Nibble}

theorem spriteMask_eq (x : Fin 64) (y : Fin 32) : spriteMask s vx vy n x y =
    (decide (spriteCol (s.v vx) x < 8) &&
      ((s.mem.load s.I.toNat n.toNat).getD (spriteRow (s.v vy) y) 0).getLsbD (7 - spriteCol (s.v vx) x)) := rfl

/-- The mask is made of the coordinates and the sprite's bytes alone. -/
theorem spriteMask_congr (hx : t.v vx = s.v vx) (hy : t.v vy = s.v vy) (hI : t.I = s.I)
    (hbyte : ∀ a, t.byteAt a = s.byteAt a) : spriteMask t vx vy n = spriteMask s vx vy n := by
  have hload : t.mem.load t.I.toNat n.toNat = s.mem.load s.I.toNat n.toNat := by
    rw [hI]
    exact List.map_congr_left fun k _ => hbyte _
  funext x y
  rw [spriteMask, hx, hy, hload, spriteMask]

/-- At the wrapped pixel of row r and column c the mask is that sprite bit, bit 7 first (R232, R234). -/
theorem mask_at {r c : Nat} {x : Fin 64} {y : Fin 32} (hr : r < n.toNat) (hc : c < 8)
    (hx : x.val = ((s.v vx).toNat + c) % 64) (hy : y.val = ((s.v vy).toNat + r) % 32) :
    spriteMask s vx vy n x y = (s.byteAt (s.I.toNat + r)).getLsbD (7 - c) := by
  have hcol : spriteCol (s.v vx) x = c := (eq_column_iff _ x c (by omega)).1 (Fin.ext hx)
  have hrow : spriteRow (s.v vy) y = r := (eq_row_iff _ y r (by have := n.isLt; omega)).1 (Fin.ext hy)
  rw [spriteMask_eq, hcol, hrow, Memory.getD_load _ _ _ _ hr, decide_eq_true hc, Bool.true_and]
  rfl

/-- The mask has no other pixel. -/
theorem of_mask {x : Fin 64} {y : Fin 32} (h : spriteMask s vx vy n x y = true) : ∃ r c : Nat, r < n.toNat ∧ c < 8 ∧
    x.val = ((s.v vx).toNat + c) % 64 ∧ y.val = ((s.v vy).toNat + r) % 32 ∧
    (s.byteAt (s.I.toNat + r)).getLsbD (7 - c) = true := by
  have hmask := h
  rw [spriteMask_eq, Bool.and_eq_true, decide_eq_true_eq] at h
  obtain ⟨hc, hbit⟩ := h
  have hr : spriteRow (s.v vy) y < n.toNat := by
    by_contra hge
    rw [List.getD_eq_default _ _ (by rw [Memory.length_load]; omega)] at hbit
    simp at hbit
  have hx := congrArg Fin.val ((eq_column_iff (s.v vx) x _ (by omega)).2 rfl)
  have hy := congrArg Fin.val ((eq_row_iff (s.v vy) y _ (by have := n.isLt; omega)).2 rfl)
  exact ⟨_, _, hr, hc, hx, hy, (mask_at hr hc hx hy).symm.trans hmask⟩

/-- The mask is empty exactly when every byte of the sprite is 0. -/
theorem exists_mask_iff : (∃ x y, spriteMask s vx vy n x y = true) ↔ ∃ r, r < n.toNat ∧ s.byteAt (s.I.toNat + r) ≠ 0 := by
  constructor
  · rintro ⟨x, y, hmask⟩
    obtain ⟨r, c, hr, -, -, -, hbit⟩ := of_mask hmask
    exact ⟨r, hr, fun hzero => by simp [hzero] at hbit⟩
  · rintro ⟨r, hr, hne⟩
    obtain ⟨j, hj, hbit⟩ : ∃ j, j < 8 ∧ (s.byteAt (s.I.toNat + r)).getLsbD j = true := by
      by_contra hnone
      refine hne (BitVec.eq_of_getLsbD_eq fun j hj => ?_)
      simpa using fun hbit => hnone ⟨j, hj, hbit⟩
    refine ⟨columnOf (s.v vx) (7 - j), rowOf (s.v vy) r, ?_⟩
    rw [mask_at (c := 7 - j) hr (by omega) rfl rfl, show 7 - (7 - j) = j by omega, hbit]

/-! ## A draw -/

theorem flagByte_eq_one (f : Bool) : flagByte f = 1 ↔ f = true := by cases f <;> decide

theorem flagByte_cases (f : Bool) : flagByte f = 1 ∨ flagByte f = 0 := by cases f <;> decide

theorem drawn_mask (s : State) (vx vy n : Nibble) :
    (∀ x y, (spriteDrawn s vx vy n).1.pixel x y = (s.pixel x y ^^ spriteMask s vx vy n x y)) ∧
      ((spriteDrawn s vx vy n).2 = true ↔ ∃ x y, spriteMask s vx vy n x y = true ∧ s.pixel x y = true) :=
  drawSprite_spec _ _ _ s.disp (by rw [Memory.length_load]; have := n.isLt; omega)

theorem changesOnly_afterDraw (s : State) (vx vy n : Nibble) (w : Word) :
    ChangesOnly (fun q => q ∈ [.v 0xF, .drawFlag, .pc] ∨ ∃ x y, q = .pixel x y) s ((afterDraw s vx vy n).setPc w) := by
  have hrest := ((changesOnly_setDrawFlag (s.setDisp (spriteDrawn s vx vy n).1) true).append
    (changesOnly_setV _ flagIdx (flagByte (spriteDrawn s vx vy n).2))).append (changesOnly_setPc _ w)
  have hplaces : ChangesOnly (· ∈ [.v 0xF, .drawFlag, .pc]) _ ((afterDraw s vx vy n).setPc w) :=
    hrest.of_subset (by simp [flagIdx])
  exact ((changesOnly_setDisp s _).mono fun _ => Or.inr).trans (hplaces.mono fun _ => Or.inl)

/-- A draw inside memory completes: it inverts the pixels of the mask, and collides where one of them was set. -/
theorem exec_drw_mask (h : n = 0 ∨ s.I.toNat + n.toNat - 1 ≤ 0xFFF) : ∃ t, exec (.drw vx vy n) s = .next t ∧
    (∀ x y, t.pixel x y = (s.pixel x y ^^ spriteMask s vx vy n x y)) ∧ (t.v 0xF = 1 ∨ t.v 0xF = 0) ∧
    (t.v 0xF = 1 ↔ ∃ x y, spriteMask s vx vy n x y = true ∧ s.pixel x y = true) ∧ t.drawFlag = true ∧ t.pc = s.pc + 2 ∧
    ChangesOnly (fun q => q ∈ [.v 0xF, .drawFlag, .pc] ∨ ∃ x y, q = .pixel x y) s t := by
  have hrange : n.toNat = 0 ∨ s.I.toNat + n.toNat - 1 ≤ 0xFFF := h.imp_left fun hn => by rw [hn]; rfl
  obtain ⟨hpixel, hcollision⟩ := drawn_mask s vx vy n
  have hflag : ((afterDraw s vx vy n).setPc (s.pc + 2)).v 0xF = flagByte (spriteDrawn s vx vy n).2 := by
    rw [v_setPc, afterDraw, v_setV, if_pos (show (0xF : Nibble) = flagIdx from rfl)]
  refine ⟨_, (exec_drw s vx vy n).trans (if_pos hrange), hpixel, ?_, ?_, rfl, rfl, changesOnly_afterDraw s vx vy n _⟩
  · rw [hflag]
    exact flagByte_cases _
  · rw [hflag, flagByte_eq_one, hcollision]

end

/-- Settles O46: the mask is the sprite's bit at its wrapped pixels, and empty elsewhere. -/
theorem drawXorsTheSprite : Obligations.DrawXorsTheSprite := by
  unfold Obligations.DrawXorsTheSprite
  intro vx vy n s hrange
  obtain ⟨t, hnext, hpixel, hcases, hcollision, hflag, hpc, hframe⟩ := exec_drw_mask (vx := vx) (vy := vy) hrange
  refine ⟨decode_encode (.drw vx vy n), t, hnext, ?_, ?_, hcases, hcollision.trans ⟨?_, ?_⟩, hflag, hpc, hframe⟩
  · intro r c x y hr hc hx hy
    rw [hpixel, mask_at hr hc hx hy]
  · intro x y houtside
    have hmask : spriteMask s vx vy n x y = false := by
      by_contra htrue
      obtain ⟨r, c, hr, hc, hx, hy, -⟩ := of_mask (eq_true_of_ne_false htrue)
      exact houtside r c hr hc ⟨hx, hy⟩
    rw [hpixel, hmask, Bool.xor_false]
  · rintro ⟨x, y, hmask, hset⟩
    obtain ⟨r, c, hr, hc, hx, hy, hbit⟩ := of_mask hmask
    exact ⟨r, c, x, y, hr, hc, hx, hy, hbit, hset⟩
  · rintro ⟨r, c, x, y, hr, hc, hx, hy, hbit, hset⟩
    exact ⟨x, y, (mask_at hr hc hx hy).trans hbit, hset⟩

/-- Settles O47: the second draw has the mask of the first, since it finds the coordinates, I and memory as they were. -/
theorem drawingTwiceRestores : Obligations.DrawingTwiceRestores := by
  unfold Obligations.DrawingTwiceRestores
  intro vx vy n s hvx hvy hrange
  obtain ⟨t, hfirst, hpixel, -, -, -, -, hframe⟩ := exec_drw_mask (vx := vx) (vy := vy) hrange
  have hI : t.I = s.I := hframe.I_eq (by simp)
  have hmask : spriteMask t vx vy n = spriteMask s vx vy n :=
    spriteMask_congr (hframe.v_eq vx (by simpa using hvx)) (hframe.v_eq vy (by simpa using hvy)) hI
      fun a => hframe.byteAt_eq a (by simp)
  obtain ⟨u, hsecond, hpixel', -, hcollision, -⟩ := exec_drw_mask (s := t) (vx := vx) (vy := vy) (hI ▸ hrange)
  refine ⟨t, u, hfirst, hsecond, fun x y => ?_, fun hblank => ?_⟩
  · rw [hpixel', hmask, hpixel, Bool.xor_assoc, Bool.xor_self, Bool.xor_false]
  · -- After one draw on a blank display the set pixels are those of the mask.
    rw [hcollision, hmask, ← exists_mask_iff (vx := vx) (vy := vy)]
    simp only [hpixel, hblank, Bool.false_xor, and_self]

end Sys2Proof.Machine
end

section
/-! PROOF. What each instruction may write, and what none reads (spec/10_state.md sections 2 to 9). The frames of the single
instructions are gathered into one: an execution writes the places of mayWrite and no other. Who may write a place is then
read off mayWrite. -/
namespace Sys2Proof.Machine

/-! ## The frame of an execution -/

/-- The places an instruction may write, whatever the state. -/
def mayWrite (i : Instr) (q : Place) : Prop :=
  match i with
  | .cls => q ∈ [.drawFlag, .pc] ∨ ∃ x y, q = .pixel x y
  | .drw _ _ _ => q ∈ [.v 0xF, .drawFlag, .pc] ∨ ∃ x y, q = .pixel x y
  | .ret => q ∈ [.pc, .sp]
  | .call _ => q ∈ [.pc, .sp] ∨ ∃ k, q = .stack k
  | .jp _ | .jpV0 _ | .seByte _ _ | .sneByte _ _ | .seReg _ _ | .sneReg _ _ | .skp _ | .sknp _ => q ∈ [.pc]
  | .ldByte x _ | .addByte x _ | .ldReg x _ | .orReg x _ | .andReg x _ | .xorReg x _ => q ∈ [.v x, .pc]
  | .ldVxDt x | .ldVxK x => q ∈ [.v x, .pc]
  | .rnd x _ => q ∈ [.v x, .pc, .draws]
  | .addReg x _ | .subReg x _ | .subnReg x _ | .shr x | .shl x => q ∈ [.v x, .v 0xF, .pc]
  | .ldI _ | .addI _ | .ldF _ => q ∈ [.index, .pc]
  | .ldDtVx _ => q ∈ [.dt, .pc]
  | .ldStVx _ => q ∈ [.st, .pc]
  | .ldB _ | .stRegs _ => q = .pc ∨ ∃ a, q = .byte a
  | .ldRegs x => q = .pc ∨ ∃ k : Nibble, q = .v k ∧ k.toNat ≤ x.toNat

/-- Nothing changes where nothing is done. -/
theorem ChangesOnly.refl (p : Place → Prop) (s : State) : ChangesOnly p s s := fun _ _ => rfl

section
variable {s t : State} {x y : Nibble}

theorem changesOnly_of_skipIf {c : Bool} (h : skipIf s c = .next t) : ChangesOnly (· ∈ [.pc]) s t := by
  obtain rfl := next_inj.1 h
  exact changesOnly_setPc s _

theorem changesOnly_of_writeReg {b : Byte} (h : writeReg s x b = .next t) : ChangesOnly (· ∈ [.v x, .pc]) s t := by
  obtain rfl := next_inj.1 h
  exact changesOnly_seq (changesOnly_setV s x b) _

theorem changesOnly_of_writeRegFlag {b : Byte} {f : Bool} (h : writeRegFlag s x b f = .next t) :
    ChangesOnly (· ∈ [.v x, .v 0xF, .pc]) s t := by
  obtain ⟨u, hnext, -, -, -, hframe⟩ := writeRegFlag_spec s x (b := b) (f := f) rfl rfl
  obtain rfl := next_inj.1 (hnext.symm.trans h)
  exact hframe

/-- An execution that completes writes no place but those its instruction may write. -/
theorem changesOnly_of_exec {i : Instr} (h : exec i s = .next t) : ChangesOnly (mayWrite i) s t := by
  cases i with
  | jp | jpV0 =>
    obtain rfl := next_inj.1 h
    exact changesOnly_setPc s _
  | seByte | sneByte | seReg | sneReg => exact changesOnly_of_skipIf h
  | skp | sknp =>
    simp only [exec_skp, exec_sknp, completes_iff] at h
    obtain ⟨-, rfl⟩ := h
    exact changesOnly_setPc s _
  | ret =>
    rw [exec_ret, completes_iff] at h
    obtain ⟨-, rfl⟩ := h
    exact changesOnly_pop s _ _
  | call =>
    rw [exec_call, completes_iff] at h
    obtain ⟨-, rfl⟩ := h
    exact (changesOnly_push s _ _ _ _).mono (by simp [mayWrite])
  | ldByte | addByte | ldReg | orReg | andReg | xorReg | ldVxDt => exact changesOnly_of_writeReg h
  | ldVxK x =>
    cases hkey : lowestKey s with
    | none =>
      obtain rfl := next_inj.1 ((exec_ldVxK_none s x hkey).symm.trans h)
      exact .refl _ s
    | some k => exact changesOnly_of_writeReg ((exec_ldVxK_some s x hkey).symm.trans h)
  | rnd x kk =>
    have hwrite : ChangesOnly (· ∈ [.v x, .pc]) (s.setDraws (s.draws + 1)) t := changesOnly_of_writeReg h
    exact ((changesOnly_setDraws s _).append hwrite).of_subset (by simp)
  | addReg | subReg | subnReg | shr | shl => exact changesOnly_of_writeRegFlag h
  | ldI | addI =>
    obtain rfl := next_inj.1 h
    exact changesOnly_seq (changesOnly_setI s _) _
  | ldF =>
    rw [exec_ldF, completes_iff] at h
    obtain ⟨-, rfl⟩ := h
    exact changesOnly_seq (changesOnly_setI s _) _
  | ldDtVx =>
    obtain rfl := next_inj.1 h
    exact changesOnly_seq (changesOnly_setDt s _) _
  | ldStVx =>
    obtain rfl := next_inj.1 h
    exact changesOnly_seq (changesOnly_setSt s _) _
  | ldB | stRegs =>
    simp only [exec_ldB, exec_stRegs, completes_iff] at h
    obtain ⟨-, rfl⟩ := h
    exact (changesOnly_store_next s _ _ _).mono fun q hq => hq.imp_right fun ⟨a, ha, _⟩ => ⟨a, ha⟩
  | ldRegs =>
    rw [exec_ldRegs, completes_iff] at h
    obtain ⟨-, rfl⟩ := h
    exact changesOnly_loadBlock_next s _ _ _ _
  | cls =>
    obtain ⟨-, u, hnext, -, -, -, hframe⟩ := clearBlanksTheDisplay s
    obtain rfl := next_inj.1 (hnext.symm.trans h)
    exact hframe
  | drw =>
    rw [exec_drw, completes_iff] at h
    obtain ⟨-, rfl⟩ := h
    exact changesOnly_afterDraw s _ _ _ _

/-! ## Who may write a place -/

theorem mayWrite_of_get_ne {i : Instr} {q : Place} (h : exec i s = .next t) (hne : q.get t ≠ q.get s) : mayWrite i q := by
  by_contra hnot
  exact hne (changesOnly_of_exec h q hnot)

end

section
variable {i : Instr}

theorem of_mayWrite_index (h : mayWrite i .index) : (∃ nnn, i = .ldI nnn) ∨ (∃ x, i = .addI x) ∨ ∃ x, i = .ldF x := by
  cases i with
  | ldI | addI | ldF => simp
  | _ => simp [mayWrite] at h

theorem of_mayWrite_sp (h : mayWrite i .sp) : i = .ret ∨ ∃ nnn, i = .call nnn := by
  cases i with
  | ret | call => simp
  | _ => simp [mayWrite] at h

theorem of_mayWrite_dt (h : mayWrite i .dt) : ∃ x, i = .ldDtVx x := by
  cases i with
  | ldDtVx x => exact ⟨x, rfl⟩
  | _ => simp [mayWrite] at h

theorem of_mayWrite_st (h : mayWrite i .st) : ∃ x, i = .ldStVx x := by
  cases i with
  | ldStVx x => exact ⟨x, rfl⟩
  | _ => simp [mayWrite] at h

theorem of_mayWrite_pixel {x : Fin 64} {y : Fin 32} (h : mayWrite i (.pixel x y)) : i = .cls ∨ ∃ vx vy n, i = .drw vx vy n := by
  cases i with
  | cls | drw => simp
  | _ => simp [mayWrite] at h

theorem of_mayWrite_drawFlag (h : mayWrite i .drawFlag) : i = .cls ∨ ∃ vx vy n, i = .drw vx vy n := by
  cases i with
  | cls | drw => simp
  | _ => simp [mayWrite] at h

theorem of_mayWrite_byte {a : Nat} (h : mayWrite i (.byte a)) : (∃ x, i = .ldB x) ∨ ∃ x, i = .stRegs x := by
  cases i with
  | ldB | stRegs => simp
  | _ => simp [mayWrite] at h

theorem of_mayWrite_draws (h : mayWrite i .draws) : ∃ x kk, i = .rnd x kk := by
  cases i with
  | rnd x kk => exact ⟨x, kk, rfl⟩
  | _ => simp [mayWrite] at h

theorem not_mayWrite_key (k : Nibble) : ¬mayWrite i (.key k) := by
  cases i <;> simp [mayWrite]

/-- R22's list: the flag writers, and the destinations named by X. A block load reaches VF only as its last register. -/
theorem mayWriteVF_of_mayWrite (h : mayWrite i (.v 0xF)) : mayWriteVF i := by
  cases i with
  | addReg | subReg | shr | subnReg | shl | drw => trivial
  | ldByte | addByte | ldReg | orReg | andReg | xorReg | rnd | ldVxDt | ldVxK =>
    simpa [mayWrite, mayWriteVF, eq_comm] using h
  | ldRegs x =>
    have hge : 15 ≤ x.toNat := by simpa [mayWrite] using h
    have hlt := x.isLt
    exact BitVec.eq_of_toNat_eq (show x.toNat = 15 by omega)
  | _ => simp [mayWrite] at h

end

theorem bool_eq_of_toNat_eq {b c : Bool} (h : b.toNat = c.toNat) : b = c := by
  rw [← Bool.ofNat_toNat b, h, Bool.ofNat_toNat]

/-- CLS and DRW set the draw flag, and no other instruction writes it (D21). -/
theorem drawFlag_of_exec {i : Instr} {s t : State} (h : exec i s = .next t) (hset : s.drawFlag = true) : t.drawFlag = true := by
  by_cases hwrite : mayWrite i .drawFlag
  · rcases of_mayWrite_drawFlag hwrite with rfl | ⟨vx, vy, n, rfl⟩
    · obtain rfl := next_inj.1 h
      rfl
    · rw [exec_drw, completes_iff] at h
      obtain ⟨-, rfl⟩ := h
      rfl
  · exact (bool_eq_of_toNat_eq (changesOnly_of_exec h _ hwrite)).trans hset

/-- Settles O49: a place that changed is one the instruction may write. -/
theorem onlyTheNamedInstructionsWrite : Obligations.OnlyTheNamedInstructionsWrite := by
  unfold Obligations.OnlyTheNamedInstructionsWrite
  intro i s t h
  refine ⟨fun hne => ?_, fun hne => ?_, fun hne => ?_, fun hne => ?_, fun x y hne => ?_, fun a hne => ?_, fun k => ?_,
    drawFlag_of_exec h, fun hne => ?_, fun hne => ?_⟩
  · exact of_mayWrite_index (mayWrite_of_get_ne h (mt BitVec.eq_of_toNat_eq hne))
  · exact of_mayWrite_sp (mayWrite_of_get_ne h (mt BitVec.eq_of_toNat_eq hne))
  · exact of_mayWrite_dt (mayWrite_of_get_ne h (mt BitVec.eq_of_toNat_eq hne))
  · exact of_mayWrite_st (mayWrite_of_get_ne h (mt BitVec.eq_of_toNat_eq hne))
  · exact of_mayWrite_pixel (mayWrite_of_get_ne (q := .pixel x y) h (mt bool_eq_of_toNat_eq hne))
  · exact of_mayWrite_byte (mayWrite_of_get_ne (q := .byte a) h (mt BitVec.eq_of_toNat_eq hne))
  · exact bool_eq_of_toNat_eq (changesOnly_of_exec h (.key k) (not_mayWrite_key k))
  · exact of_mayWrite_drawFlag (mayWrite_of_get_ne h (mt bool_eq_of_toNat_eq hne))
  · exact of_mayWrite_draws (mayWrite_of_get_ne h hne)

/-- Settles O50: VF is a place like any other. -/
theorem onlyTheListedInstructionsWriteVF : Obligations.OnlyTheListedInstructionsWriteVF := by
  unfold Obligations.OnlyTheListedInstructionsWriteVF
  intro i s t h hne
  exact mayWriteVF_of_mayWrite (mayWrite_of_get_ne h (mt BitVec.eq_of_toNat_eq hne))

/-! ## What no instruction reads -/

/-- ST and the draw flag, each changed by a function: a write of one of them is a constant there and id at the other. -/
def State.mapUnread (g : Byte → Byte) (f : Bool → Bool) (s : State) : State := (s.setSt (g s.st)).setDrawFlag (f s.drawFlag)

/-- No instruction reads ST or the draw flag: a change there that the instruction does not overwrite is carried along. -/
theorem exec_mapUnread {i : Instr} {g : Byte → Byte} {f : Bool → Bool} (hst : (∀ x, i ≠ .ldStVx x) ∨ g = id)
    (hflag : (i ≠ .cls ∧ ∀ vx vy n, i ≠ .drw vx vy n) ∨ f = id) (s : State) :
    exec i (s.mapUnread g f) = onNext (State.mapUnread g f) (exec i s) := by
  cases i with
  | ldStVx x =>
    obtain rfl := hst.resolve_left fun h => h x rfl
    rfl
  | cls =>
    obtain rfl := hflag.resolve_left fun ⟨h, _⟩ => h rfl
    rfl
  | drw vx vy n =>
    obtain rfl := hflag.resolve_left fun ⟨_, h⟩ => h vx vy n rfl
    simp only [exec_drw, onNext_ite]
    rfl
  -- The other instructions that can stop: neither the check nor the writes look there.
  | ret | call | skp | sknp | ldF | ldB | stRegs | ldRegs =>
    simp only [exec_ret, exec_call, exec_skp, exec_sknp, exec_ldF, exec_ldB, exec_stRegs, exec_ldRegs, onNext_ite]
    rfl
  | ldVxK x =>
    have hkey : lowestKey (s.mapUnread g f) = lowestKey s := rfl
    cases hk : lowestKey s with
    | none => rw [exec_ldVxK_none s x hk, exec_ldVxK_none _ x (hkey.trans hk), onNext_next]
    | some k => rw [exec_ldVxK_some s x hk, exec_ldVxK_some _ x (hkey.trans hk)]; rfl
  -- Every other instruction has one outcome, its writes beside both.
  | _ => rfl

/-- Settles O51: a write of either is a change of what is not read; the instructions named overwrite it. -/
theorem soundTimerAndDrawFlagAreNotRead : Obligations.SoundTimerAndDrawFlagAreNotRead := by
  unfold Obligations.SoundTimerAndDrawFlagAreNotRead
  intro i s b c
  refine ⟨?_, fun hst => ?_, ?_, fun hcls hdrw => ?_⟩
  · rintro ⟨x, rfl⟩
    rfl
  · exact exec_mapUnread (g := fun _ => b) (f := id) (.inl hst) (.inr rfl) s
  · rintro (rfl | ⟨vx, vy, n, rfl⟩)
    · rfl
    · simp only [exec_drw]
      rfl
  · exact exec_mapUnread (g := id) (f := fun _ => c) (.inr rfl) (.inl ⟨hcls, hdrw⟩) s

end Sys2Proof.Machine
end
